-- ==== Sys2Proof/Word.lean ====
section
/-! DEFINITION. The word types of the block: 32-bit registers and command words (10_state.md R20, 30_encoding.md R70),
8-bit channels and bytes, 2-bit symbols (00_scope.md R8). -/

namespace Sys2Proof

/-- A register or a command word: 32 bits (00_scope.md R9, "The register width is 32 bits"). -/
abbrev Word := BitVec 32

/-- A byte, or one colour channel: CHANNEL_BITS = 8 (00_scope.md R8). -/
abbrev Byte := BitVec 8

/-- A symbol, "the quantum of data written per channel": SYMBOL_BITS = 2 (00_scope.md R8). -/
abbrev Symbol := BitVec 2

end Sys2Proof
end

