-- ==== Sys2Proof/Syntax.lean ====
section
/-! DEFINITION. The commands of the block: one constructor per row of spec/opcode_table.json (30_encoding.md R72).
A command has no operand fields (30_encoding.md R73). -/

namespace Sys2Proof

/-- The eleven commands, in the order of the opcode map (30_encoding.md R72). -/
inductive Instr where
  /-- NOP, 43_header_orchestration.md R161. -/
  | nop
  /-- FORMAT_HEADER, 43_header_orchestration.md R163. -/
  | formatHeader
  /-- SYMBOLIZE, 40_bitstream_codec.md R101 with HP = 0. -/
  | symbolize
  /-- SYMBOLIZE.H, 40_bitstream_codec.md R101 with HP = 1. -/
  | symbolizeH
  /-- DESYMBOLIZE, 40_bitstream_codec.md R102. -/
  | desymbolize
  /-- EMBED, 41_channel_writer.md R122. -/
  | embed
  /-- EXTRACT_SYMBOLS, 42_channel_reader.md R142. -/
  | extractSymbols
  /-- READ_HEADER, 42_channel_reader.md R143. -/
  | readHeader
  /-- READ_PAYLOAD, 42_channel_reader.md R145. -/
  | readPayload
  /-- INJECT, 43_header_orchestration.md R165. -/
  | inject
  /-- EXTRACT, 43_header_orchestration.md R166. -/
  | extract
  deriving DecidableEq, Repr

end Sys2Proof
end

