-- ==== Sys2Proof/WellFormed.lean ====
section
/-! DEFINITION. The fields of a command word (30_encoding.md R71), when they are legal (R74), and the fields of each
command (R72). -/

namespace Sys2Proof

/-- The three fields of a command word: OP[3:0], HP[4], RSV[31:5] (30_encoding.md R71). -/
structure CommandFields where
  op  : BitVec 4
  hp  : BitVec 1
  rsv : BitVec 27
  deriving DecidableEq, Repr

/-- RSV must be 0 (30_encoding.md R71). -/
def CommandFields.reservedClear (f : CommandFields) : Bool := f.rsv == 0#27

/-- OP is one of 0x0 to 0x9 (30_encoding.md R74). -/
def CommandFields.opcodeDefined (f : CommandFields) : Bool := decide (f.op.toNat ≤ 9)

/-- "HP ... is legal only with OP = 0x2 (SYMBOLIZE)" (30_encoding.md R71). -/
def CommandFields.prefixAllowed (f : CommandFields) : Bool := f.hp == 0#1 || f.op == 2#4

/-- The fields form a legal command: none of the three illegal cases of 30_encoding.md R74. -/
def CommandFields.wf (f : CommandFields) : Bool := f.reservedClear && f.opcodeDefined && f.prefixAllowed

/-- The fields of each command's word (30_encoding.md R72). -/
def Instr.fields : Instr → CommandFields
  | .nop            => ⟨0x0, 0, 0⟩
  | .formatHeader   => ⟨0x1, 0, 0⟩
  | .symbolize      => ⟨0x2, 0, 0⟩
  | .symbolizeH     => ⟨0x2, 1, 0⟩
  | .desymbolize    => ⟨0x3, 0, 0⟩
  | .embed          => ⟨0x4, 0, 0⟩
  | .extractSymbols => ⟨0x5, 0, 0⟩
  | .readHeader     => ⟨0x6, 0, 0⟩
  | .readPayload    => ⟨0x7, 0, 0⟩
  | .inject         => ⟨0x8, 0, 0⟩
  | .extract        => ⟨0x9, 0, 0⟩

/-- A command is well formed when its fields are legal. -/
def Instr.wf (i : Instr) : Bool := i.fields.wf

end Sys2Proof
end

