-- ==== Sys2Proof/Decode.lean ====
section
/-! DEFINITION. Decoding a command word (30_encoding.md R75), total, with a name for each reason of rejection (R74); the
encoder (R71, R72); and the decoder as the host's table numbers its bits. -/

namespace Sys2Proof

/-- Why a word is illegal (30_encoding.md R74). -/
inductive Illegal where
  /-- A word with RSV ≠ 0. -/
  | reservedBits
  /-- A word with OP in 0xA to 0xF. -/
  | undefinedOpcode
  /-- A word with HP = 1 and OP ≠ 0x2. -/
  | headerPrefix
  deriving DecidableEq, Repr

/-- OP is w[3:0] (30_encoding.md R71). -/
def opField (w : Word) : BitVec 4 := w.extractLsb' 0 4

/-- HP is w[4] (30_encoding.md R71). -/
def hpField (w : Word) : BitVec 1 := w.extractLsb' 4 1

/-- RSV is w[31:5] (30_encoding.md R71). -/
def rsvField (w : Word) : BitVec 27 := w.extractLsb' 5 27

/-- The command an OP up to 0x9 selects, with its HP bit (30_encoding.md R75). -/
def commandOf (op : Nat) (hp : Bool) : Except Illegal Instr :=
  match op with
  | 0x0 => .ok .nop
  | 0x1 => .ok .formatHeader
  | 0x2 => .ok (if hp then .symbolizeH else .symbolize)
  | 0x3 => .ok .desymbolize
  | 0x4 => .ok .embed
  | 0x5 => .ok .extractSymbols
  | 0x6 => .ok .readHeader
  | 0x7 => .ok .readPayload
  | 0x8 => .ok .inject
  | 0x9 => .ok .extract
  | _   => .error .undefinedOpcode

/-- The decoding procedure of 30_encoding.md R75: an answer for every 32-bit word. -/
def decode (w : Word) : Except Illegal Instr :=
  if rsvField w ≠ 0#27 then .error .reservedBits
  else if 9 < (opField w).toNat then .error .undefinedOpcode
  else if hpField w = 1#1 ∧ opField w ≠ 2#4 then .error .headerPrefix
  else commandOf (opField w).toNat (hpField w == 1#1)

/-- The word with the given fields: RSV above HP above OP (30_encoding.md R71). -/
def wordOfFields (f : CommandFields) : Word := f.rsv ++ f.hp ++ f.op

/-- The one legal word of each command (30_encoding.md R72). -/
def encode (i : Instr) : Word := wordOfFields i.fields

/-- The instruction the decoder reads from a command word numbered as spec/opcode_table.json numbers it. The block has one
format of 32 bits (30_encoding.md R70): the bits above `nbits` are 0. -/
def decodeTableWord (nbits w : Nat) : Option Instr :=
  match decode (BitVec.ofNat 32 (w % 2 ^ nbits)) with
  | .ok i => some i
  | .error _ => none

end Sys2Proof
end

