-- ==== Sys2Proof/Config.lean ====
section
/-! DEFINITION. The parameters the spec leaves open (00_scope.md R9, 20_memory.md R60): constants with no body, so no
proof can see their values. The capacities enter State.reset only; every other rule reads them from State.caps. -/

namespace Sys2Proof.Config

/-- P_CAP, the size of the pixel memory in pixels (00_scope.md R9). -/
opaque pCap : Word

/-- B_CAP, the size of the payload memory in bytes (00_scope.md R9). -/
opaque bCap : Word

/-- S_CAP, the size of the symbol memory in symbols (00_scope.md R9). -/
opaque sCap : Word

/-- The open number from which `nCap` is made. -/
opaque nCapOpen : Word

/-- N_CAP, the size of the name memory in bytes: any value from 124 to 2^32 − 1 (00_scope.md R9). DESIGN CHOICE (log 3):
the bound 124 ≤ N_CAP is met by raising a smaller open number to 124, so N_CAP ranges over exactly the legal values. -/
def nCap : Word := if nCapOpen.toNat < 124 then 124#32 else nCapOpen

/-- LATENCY, the time a command takes: "no rule depends on it" (00_scope.md R9). Nothing reads it (log 10). -/
opaque latency : Nat

/-- REG_BASE, where the registers sit in the host's address space: "no rule depends on these bases" (20_memory.md R60).
Nothing reads it (log 10). -/
opaque regBase : Nat

/-- The window bases of P, B, H, N and S (0 to 4) in the host's address space (20_memory.md R60). Nothing reads them (log 10). -/
opaque windowBase : Fin 5 → Nat

end Sys2Proof.Config
end

