-- ==== Sys2Proof/Machine/State.lean ====
section
/-! DEFINITION. The state of the block as plain data (10_state.md), the host interactions still to come (60_exceptions.md
R216), the reasons a step can stop (R217), and the state after reset (70_reset_and_hazards.md R240, R241). -/

namespace Sys2Proof.Machine

/-- A memory of one address space: a list of (index, element), indexes strictly rising (`Memory.wf`). An element is listed
exactly when its written mark is set (10_state.md R46; log 4). `Memory Byte` is a list of `Host.Cell`. -/
abbrev Memory (α : Type) := List (Nat × α)

/-- A pixel: "an ordered 4-tuple of 8-bit unsigned channel values (R, G, B, A)" (00_scope.md R16). -/
structure Pixel where
  r : Byte
  g : Byte
  b : Byte
  a : Byte
  deriving DecidableEq, Repr

/-- The values of P_CAP_REG, B_CAP_REG, S_CAP_REG and N_CAP_REG (10_state.md R33), which no step changes (log 3). -/
structure Caps where
  pCap : Word
  bCap : Word
  sCap : Word
  nCap : Word
  deriving DecidableEq, Repr

/-- The fourteen registers (10_state.md R20). -/
inductive Reg where
  | cmd | status | pixelCount | payloadLen | nameLen | symLen | hdrSize | hdrNameLen
  | capacityLo | capacityHi | pCapReg | bCapReg | sCapReg | nCapReg
  deriving DecidableEq, Repr

/-- The five memories as the host names them: PB is the byte view of P (20_memory.md R50, R51; 30_encoding.md R76). -/
inductive Space where
  | pb | b | h | n | s
  deriving DecidableEq, Repr

/-- One interaction of the host with the block (60_exceptions.md R216, 30_encoding.md R76), or a reset by the platform
(70_reset_and_hazards.md R242). A register access carries its width in bytes, because a narrow or wide access is refused
(20_memory.md R55). A command is a register write of its word to CMD. -/
inductive HostStep where
  | regWrite (offset width : Nat) (value : Word)
  | regRead (offset width : Nat)
  | memWrite (space : Space) (index : Nat) (value : Byte)
  | memRead (space : Space) (index : Nat)
  | platformReset
  deriving DecidableEq, Repr

/-- What the host gets from a read (60_exceptions.md R216): a register's word or one memory element. -/
inductive Reply where
  | word (w : Word)
  | element (v : Byte)
  deriving DecidableEq, Repr

/-- The error codes' names (60_exceptions.md R201). -/
inductive ErrCode where
  | ok | payloadTooLarge | invalidHeader | truncatedStream
  /-- NAME_DECODE: "reserved: never raised by the core" (60_exceptions.md R201, R218). -/
  | nameDecode
  | illegalCommand | bufferOverflow | symbolOverrun
  deriving DecidableEq, Repr

/-- The model faults (60_exceptions.md R217). -/
inductive Fault where
  /-- UNWRITTEN_READ: a command or a host read reads a memory element whose written mark is clear (10_state.md R46). Raised by
  every command that reads memory and by a host memory read. Safe: the spec gives the step no result. It does not say which
  element, because the order of a command's reads is not observable (20_memory.md R67; log 5). -/
  | unwrittenRead
  deriving DecidableEq, Repr

/-- The refusals (60_exceptions.md R217). -/
inductive Refusal where
  /-- An instruction without a meaning. No arm of exec answers it. Safe. -/
  | notModelled (mnemonic : String)
  /-- A host register access that is narrow, wide, misaligned or outside offsets 0x00 to 0xFC (20_memory.md R55, R57).
  Raised by host register reads and writes. Safe: the spec refuses the step. -/
  | registerAccess
  /-- A host memory access to an index outside its space (20_memory.md R57). Raised by host memory reads and writes. Safe: the
  spec refuses the step. -/
  | indexOutOfRange
  /-- A host access other than reading STATUS while BUSY = 1 (70_reset_and_hazards.md R246). Raised by host steps in states no
  run from reset reaches (log 6). Safe: the spec refuses the step. -/
  | busyAccess
  deriving DecidableEq, Repr

/-- The machine's state. The memories are named by their spaces. -/
structure State where
  /-- CMD (10_state.md R22). -/
  cmd : Word
  /-- STATUS.ERR, bits 3:0 of STATUS (10_state.md R23, R24). -/
  err : BitVec 4
  /-- STATUS.BUSY, bit 8 of STATUS (10_state.md R23, R25). -/
  busy : Bool
  /-- PIXEL_COUNT (10_state.md R26). -/
  pixelCount : Word
  /-- PAYLOAD_LEN (10_state.md R27). -/
  payloadLen : Word
  /-- NAME_LEN (10_state.md R28). -/
  nameLen : Word
  /-- SYM_LEN (10_state.md R29). -/
  symLen : Word
  /-- HDR_SIZE (10_state.md R30). -/
  hdrSize : Word
  /-- HDR_NAME_LEN (10_state.md R32). -/
  hdrNameLen : Word
  /-- The capacity registers (10_state.md R33). -/
  caps : Caps
  /-- The pixel memory in its byte view: PB[4i + c] (10_state.md R40, 20_memory.md R51). -/
  memP : Memory Byte
  /-- The payload memory B (10_state.md R41). -/
  memB : Memory Byte
  /-- The header memory H (10_state.md R42). -/
  memH : Memory Byte
  /-- The name input memory N (10_state.md R43). -/
  memN : Memory Byte
  /-- The symbol memory S (10_state.md R44). -/
  memS : Memory Symbol
  /-- The host interactions still to come, oldest first: the model's own field (log 1). -/
  host : List HostStep
  /-- What the host has got, newest first: the model's own field (log 2). -/
  replies : List Reply
  deriving DecidableEq, Repr

/-- The state after reset of a block with the given capacities (70_reset_and_hazards.md R240, R241): registers 0, memories
with nothing written, and nothing from the host. -/
def State.resetWith (c : Caps) : State where
  cmd := 0
  err := 0
  busy := false
  pixelCount := 0
  payloadLen := 0
  nameLen := 0
  symLen := 0
  hdrSize := 0
  hdrNameLen := 0
  caps := c
  memP := []
  memB := []
  memH := []
  memN := []
  memS := []
  host := []
  replies := []

/-- The open capacities of this implementation (00_scope.md R9). -/
def configCaps : Caps := ⟨Config.pCap, Config.bCap, Config.sCap, Config.nCap⟩

/-- The state right after reset (70_reset_and_hazards.md R240, R241). -/
def State.reset : State := State.resetWith configCaps

end Sys2Proof.Machine
end

