-- ==== Sys2Proof/Machine/Flags.lean ====
section
/-! DEFINITION. The outcome indicator STATUS (10_state.md R23 to R25, 60_exceptions.md R201) and the derived capacity
registers (10_state.md R31, 43_header_orchestration.md R162). The block has no other flags (10_state.md R36). -/

namespace Sys2Proof.Machine

/-- The number of each error code (60_exceptions.md R201). -/
def errCode : ErrCode → BitVec 4
  | .ok              => 0
  | .payloadTooLarge => 1
  | .invalidHeader   => 2
  | .truncatedStream => 3
  | .nameDecode      => 4
  | .illegalCommand  => 5
  | .bufferOverflow  => 6
  | .symbolOverrun   => 7

/-- STATUS as the host reads it: ERR in bits 3:0, BUSY in bit 8, every other bit 0 (10_state.md R23). -/
def statusWord (s : State) : Word :=
  s.err.setWidth 32 ||| (if s.busy then 0x100#32 else 0#32)

/-- capacity = PIXEL_COUNT − 128, signed, without wrap-around (43_header_orchestration.md R162). -/
def capacity (s : State) : Int := (s.pixelCount.toNat : Int) - 128

/-- CAPACITY_LO = capacity mod 2^32 (10_state.md R31). -/
def capacityLo (s : State) : Word := BitVec.ofInt 32 (capacity s)

/-- CAPACITY_HI = floor(capacity / 2^32) mod 2^32 (10_state.md R31). -/
def capacityHi (s : State) : Word := BitVec.ofInt 32 (capacity s / 2 ^ 32)

end Sys2Proof.Machine
end

