-- ==== Sys2Proof/Machine/Ops.lean ====
section
/-! DEFINITION. The shared operations: memory (20_memory.md R50, 10_state.md R46), ending a command with an error or with
its staged writes (00_scope.md R13, R14; 60_exceptions.md R203, R204), and the registers as the host sees them
(10_state.md R20). The block has no traps (60_exceptions.md R200): `raise` is what it has in an exception's place. -/

namespace Sys2Proof.Machine

/-- What a step answers. -/
abbrev Result := Host.Outcome State Fault Refusal

/-! Memory -/

/-- The canonical form: indexes strictly rise. An unlisted index reads as no value, so no entry repeats it. -/
abbrev Memory.wf {α : Type} (m : Memory α) : Prop := m.Pairwise (fun x y => x.1 < y.1)

/-- Every index of the memory lies below the size of its space (20_memory.md R50). -/
abbrev Memory.within {α : Type} (m : Memory α) (size : Nat) : Prop := ∀ c ∈ m, c.1 < size

/-- MemRead(space, a): the element, or nothing when its written mark is clear (00_scope.md R13, 10_state.md R46). -/
def Memory.read {α : Type} : Memory α → Nat → Option α
  | [], _ => none
  | c :: rest, a => if c.1 = a then some c.2 else Memory.read rest a

/-- The entries of consecutive elements from index `a` on. -/
def cells {α : Type} : Nat → List α → Memory α
  | _, [] => []
  | a, v :: vs => (a, v) :: cells (a + 1) vs

/-- MemWrite of consecutive elements from index `a` on, all at once: the entries below, the new ones, the entries above. -/
def Memory.writeBlock {α : Type} (m : Memory α) (a : Nat) (vs : List α) : Memory α :=
  m.filter (fun c => decide (c.1 < a)) ++ cells a vs ++ m.filter (fun c => decide (a + vs.length ≤ c.1))

/-- MemWrite(space, a, v) (00_scope.md R13). -/
def Memory.write {α : Type} (m : Memory α) (a : Nat) (v : α) : Memory α := m.writeBlock a [v]

/-- f a, f (a+1), …: `n` values in index order, if all of them exist. Every command reads its operands through it. -/
def gather {α : Type} (f : Nat → Option α) : Nat → Nat → Option (List α)
  | _, 0 => some []
  | a, n + 1 =>
    match f a, gather f (a + 1) n with
    | some x, some xs => some (x :: xs)
    | _, _ => none

/-- The elements [a .. a+n−1] of a memory, if all of them are written. -/
def Memory.readBlock {α : Type} (m : Memory α) (a n : Nat) : Option (List α) := gather m.read a n

/-! Ending a command -/

/-- raise E: "STATUS.ERR is set to the code of E and nothing else is written" (00_scope.md R13, 60_exceptions.md R203). -/
def raise (e : ErrCode) (s : State) : Result := .next { s with err := errCode e }

/-- commit: the staged writes, given as the state that holds them, become visible and STATUS.ERR becomes 0 (00_scope.md R13,
60_exceptions.md R204). -/
def commit (staged : State) : Result := .next { staged with err := errCode .ok }

/-- Go on with what a command or a host read has read; an element whose written mark is clear is UNWRITTEN_READ
(10_state.md R46, 60_exceptions.md R217). -/
def reading {α : Type} (read : Option α) (go : α → Result) : Result :=
  match read with
  | some x => go x
  | none => .fault .unwrittenRead

/-! Registers as the host sees them -/

/-- The byte offset of each register (10_state.md R20). -/
def regOffset : Reg → Nat
  | .cmd        => 0x00
  | .status     => 0x04
  | .pixelCount => 0x08
  | .payloadLen => 0x0C
  | .nameLen    => 0x10
  | .symLen     => 0x14
  | .hdrSize    => 0x18
  | .hdrNameLen => 0x1C
  | .capacityLo => 0x20
  | .capacityHi => 0x24
  | .pCapReg    => 0x28
  | .bCapReg    => 0x2C
  | .sCapReg    => 0x30
  | .nCapReg    => 0x34

/-- The registers, in the order of their offsets (10_state.md R20). -/
def allRegs : List Reg :=
  [.cmd, .status, .pixelCount, .payloadLen, .nameLen, .symLen, .hdrSize, .hdrNameLen,
   .capacityLo, .capacityHi, .pCapReg, .bCapReg, .sCapReg, .nCapReg]

/-- The register at an offset; none at the reserved offsets (10_state.md R34). -/
def regAt (offset : Nat) : Option Reg := allRegs.find? (fun r => regOffset r == offset)

/-- What a read of a register gives (10_state.md R22 to R33). -/
def readReg (s : State) : Reg → Word
  | .cmd        => s.cmd
  | .status     => statusWord s
  | .pixelCount => s.pixelCount
  | .payloadLen => s.payloadLen
  | .nameLen    => s.nameLen
  | .symLen     => s.symLen
  | .hdrSize    => s.hdrSize
  | .hdrNameLen => s.hdrNameLen
  | .capacityLo => capacityLo s
  | .capacityHi => capacityHi s
  | .pCapReg    => s.caps.pCap
  | .bCapReg    => s.caps.bCap
  | .sCapReg    => s.caps.sCap
  | .nCapReg    => s.caps.nCap

/-- A host write to a register: stored in a read-write register, ignored by a read-only one (10_state.md R20, 20_memory.md
R59). A write to CMD also runs a command, which `issueCommand` adds. -/
def writeReg (s : State) (r : Reg) (w : Word) : State :=
  match r with
  | .cmd        => { s with cmd := w }
  | .pixelCount => { s with pixelCount := w }
  | .payloadLen => { s with payloadLen := w }
  | .nameLen    => { s with nameLen := w }
  | .symLen     => { s with symLen := w }
  | .hdrSize    => { s with hdrSize := w }
  | .status | .hdrNameLen | .capacityLo | .capacityHi | .pCapReg | .bCapReg | .sCapReg | .nCapReg => s

/-- A register access the model admits: an aligned 32-bit word at an offset from 0x00 to 0xFC (20_memory.md R55, R57). -/
def registerAccessOk (offset width : Nat) : Bool :=
  width == 4 && offset % 4 == 0 && decide (offset ≤ 0xFC)

/-! Memory elements as the host sees them -/

/-- The number of elements of each space (20_memory.md R50). -/
def spaceSize (c : Caps) : Space → Nat
  | .pb => 4 * c.pCap.toNat
  | .b  => c.bCap.toNat
  | .h  => 128
  | .n  => c.nCap.toNat
  | .s  => c.sCap.toNat

/-- The host's read of an element; a symbol is zero-extended to its 8-bit container (20_memory.md R52). -/
def readElement (s : State) (sp : Space) (a : Nat) : Option Byte :=
  match sp with
  | .pb => s.memP.read a
  | .b  => s.memB.read a
  | .h  => s.memH.read a
  | .n  => s.memN.read a
  | .s  => (s.memS.read a).map (fun x => x.setWidth 8)

/-- The host's write of an element; a symbol keeps bits 1:0 of its container (20_memory.md R52). -/
def writeElement (s : State) (sp : Space) (a : Nat) (v : Byte) : State :=
  match sp with
  | .pb => { s with memP := s.memP.write a v }
  | .b  => { s with memB := s.memB.write a v }
  | .h  => { s with memH := s.memH.write a v }
  | .n  => { s with memN := s.memN.write a v }
  | .s  => { s with memS := s.memS.write a (v.setWidth 2) }

end Sys2Proof.Machine
end

