-- ==== Sys2Proof/Machine/Operands.lean ====
section
/-! DEFINITION. The data encodings (30_encoding.md part 2), the channel multiplexer and demultiplexer (41_channel_writer.md
R121, 42_channel_reader.md R141), and how the commands read their operands. -/

namespace Sys2Proof.Machine

/-! Symbols and bytes -/

/-- sym(b, q) = (b >> 2q) & 3 (00_scope.md R13). -/
def sym (b : Byte) (q : Nat) : Symbol := (b >>> (2 * q)).setWidth 2

/-- The four symbols of a byte, least-significant pair first (30_encoding.md R78). -/
def symbolsOf (b : Byte) : List Symbol := [sym b 0, sym b 1, sym b 2, sym b 3]

/-- The symbol stream of a byte sequence: s[4j + q] = sym(d[j], q) (30_encoding.md R78). -/
def serialize (d : List Byte) : List Symbol := d.flatMap symbolsOf

/-- pack(s0, s1, s2, s3) = s0 + (s1 << 2) + (s2 << 4) + (s3 << 6) (30_encoding.md R79). -/
def pack (s0 s1 s2 s3 : Symbol) : Byte :=
  s0.setWidth 8 + (s1.setWidth 8 <<< 2) + (s2.setWidth 8 <<< 4) + (s3.setWidth 8 <<< 6)

/-! Channels and pixels -/

/-- mux_ch(c, s) = (c & 0xFC) | s (41_channel_writer.md R121). -/
def muxCh (c : Byte) (x : Symbol) : Byte := (c &&& 0xFC#8) ||| x.setWidth 8

/-- demux_ch(c) = c & 0b00000011 (42_channel_reader.md R141). -/
def demuxCh (c : Byte) : Symbol := (c &&& 0x03#8).setWidth 2

/-- The multiplexer on one pixel and one byte (41_channel_writer.md R121). -/
def mux (p : Pixel) (b : Byte) : Pixel :=
  ⟨muxCh p.r (sym b 0), muxCh p.g (sym b 1), muxCh p.b (sym b 2), muxCh p.a (sym b 3)⟩

/-- pixbyte(p) = pack(p.R & 3, p.G & 3, p.B & 3, p.A & 3) (30_encoding.md R86). -/
def pixbyte (p : Pixel) : Byte := pack (demuxCh p.r) (demuxCh p.g) (demuxCh p.b) (demuxCh p.a)

/-- A pixel's channels in their fixed order R, G, B, A (20_memory.md R51). -/
def Pixel.channels (p : Pixel) : List Byte := [p.r, p.g, p.b, p.a]

/-! Headers -/

/-- le32(v): the four bytes of a word, least significant first (00_scope.md R13). -/
def le32 (v : Word) : List Byte :=
  [v.extractLsb' 0 8, v.extractLsb' 8 8, v.extractLsb' 16 8, v.extractLsb' 24 8]

/-- unle32(b0, b1, b2, b3) = b0 | b1 << 8 | b2 << 16 | b3 << 24 (00_scope.md R13). -/
def unle32 (b0 b1 b2 b3 : Byte) : Word :=
  b0.setWidth 32 ||| (b1.setWidth 32 <<< 8) ||| (b2.setWidth 32 <<< 16) ||| (b3.setWidth 32 <<< 24)

/-- How many name bytes a formatter uses: min(NAME_LEN, 124) (10_state.md R28). -/
def nameUsed (s : State) : Nat := min s.nameLen.toNat 124

/-- fmt_header(v, n, L), given the first min(L, 124) bytes of the name (30_encoding.md R82): the size, the name, zero padding. -/
def fmtHeader (v : Word) (name : List Byte) : List Byte :=
  le32 v ++ name ++ List.replicate (124 - name.length) 0#8

/-- hdr_size(hdr) = unle32(hdr[0], hdr[1], hdr[2], hdr[3]) (30_encoding.md R83). -/
def hdrSizeOf (hdr : List Byte) : Word :=
  unle32 (hdr.getD 0 0) (hdr.getD 1 0) (hdr.getD 2 0) (hdr.getD 3 0)

/-- The greatest k' ≤ k with k' = 0 or hdr[4 + k' − 1] ≠ 0x00. -/
def nameLenUpTo (hdr : List Byte) : Nat → Nat
  | 0 => 0
  | k + 1 => if hdr.getD (4 + k) 0 ≠ 0#8 then k + 1 else nameLenUpTo hdr k

/-- namelen(hdr), the name's length with every trailing 0x00 byte stripped (30_encoding.md R83). -/
def namelen (hdr : List Byte) : Nat := nameLenUpTo hdr 124

/-! Reading a command's operands -/

/-- P[i]: the channels PB[4i] to PB[4i+3] (20_memory.md R51). -/
def Memory.pixel (m : Memory Byte) (i : Nat) : Option Pixel :=
  match m.read (4 * i), m.read (4 * i + 1), m.read (4 * i + 2), m.read (4 * i + 3) with
  | some r, some g, some b, some a => some ⟨r, g, b, a⟩
  | _, _, _, _ => none

/-- pixbyte(P[i]). -/
def pixbyteAt (m : Memory Byte) (i : Nat) : Option Byte := (m.pixel i).map pixbyte

/-- pack(S[4j], S[4j+1], S[4j+2], S[4j+3]) (40_bitstream_codec.md R102). -/
def packAt (m : Memory Symbol) (j : Nat) : Option Byte :=
  match m.read (4 * j), m.read (4 * j + 1), m.read (4 * j + 2), m.read (4 * j + 3) with
  | some s0, some s1, some s2, some s3 => some (pack s0 s1 s2 s3)
  | _, _, _, _ => none

/-- mux_ch(PB[k], S[k]) (41_channel_writer.md R122). -/
def muxAt (p : Memory Byte) (x : Memory Symbol) (k : Nat) : Option Byte :=
  match p.read k, x.read k with
  | some c, some y => some (muxCh c y)
  | _, _ => none

/-- The channels of pixels i, i+1, … after the multiplexer has written the bytes `d` into them, one byte a pixel
(30_encoding.md R85, 43_header_orchestration.md R165). -/
def muxPixels (p : Memory Byte) : Nat → List Byte → Option (List Byte)
  | _, [] => some []
  | i, b :: bs =>
    match p.pixel i, muxPixels p (i + 1) bs with
    | some px, some rest => some ((mux px b).channels ++ rest)
    | _, _ => none

/-- The name bytes a formatter reads: N[0 .. min(NAME_LEN, 124) − 1] (10_state.md R43). -/
def nameBytes (s : State) : Option (List Byte) := s.memN.readBlock 0 (nameUsed s)

/-- The payload bytes B[0 .. PAYLOAD_LEN − 1] (10_state.md R27). -/
def payloadBytes (s : State) : Option (List Byte) := s.memB.readBlock 0 s.payloadLen.toNat

/-- fmt_header(PAYLOAD_LEN, N, NAME_LEN) (43_header_orchestration.md R163). -/
def formattedHeader (s : State) : Option (List Byte) := (nameBytes s).map (fmtHeader s.payloadLen)

end Sys2Proof.Machine
end

