-- ==== Sys2Proof/Machine/Codec.lean ====
section
/-! DEFINITION. The BitStreamCodec: SYMBOLIZE, SYMBOLIZE.H and DESYMBOLIZE (40_bitstream_codec.md R101, R102). -/

namespace Sys2Proof.Machine

/-- The bytes ahead of the payload: H[0..127] when HP = 1, else none (40_bitstream_codec.md R101). -/
def prefixBytes (hp : Bool) (s : State) : Option (List Byte) :=
  if hp then s.memH.readBlock 0 128 else some []

/-- Serialize the prefix and the payload into S (40_bitstream_codec.md R101). -/
def symbolizeWith (hp : Bool) (s : State) : Result :=
  let len := s.payloadLen.toNat
  let n := (if hp then 128 else 0) + len
  if s.caps.bCap.toNat < len then raise .bufferOverflow s
  else if s.caps.sCap.toNat < 4 * n then raise .bufferOverflow s
  else
    reading (prefixBytes hp s) fun h =>
    reading (payloadBytes s) fun b =>
    commit { s with memS := s.memS.writeBlock 0 (serialize (h ++ b)), symLen := BitVec.ofNat 32 (4 * n) }

/-- SYMBOLIZE (40_bitstream_codec.md R101, HP = 0). -/
def execSymbolize (s : State) : Result := symbolizeWith false s

/-- SYMBOLIZE.H (40_bitstream_codec.md R101, HP = 1). -/
def execSymbolizeH (s : State) : Result := symbolizeWith true s

/-- DESYMBOLIZE: reassemble PAYLOAD_LEN bytes from S (40_bitstream_codec.md R102). -/
def execDesymbolize (s : State) : Result :=
  let count := s.payloadLen.toNat
  if s.caps.sCap.toNat < s.symLen.toNat then raise .bufferOverflow s
  else if s.symLen.toNat < 4 * count then raise .truncatedStream s
  else if s.caps.bCap.toNat < count then raise .bufferOverflow s
  else
    reading (gather (packAt s.memS) 0 count) fun bytes =>
    commit { s with memB := s.memB.writeBlock 0 bytes }

end Sys2Proof.Machine
end

