-- ==== Sys2Proof/Machine/Orchestration.lean ====
section
/-! DEFINITION. The header formatter and the orchestration commands: NOP, FORMAT_HEADER, INJECT and EXTRACT
(43_header_orchestration.md R161, R163, R165, R166). -/

namespace Sys2Proof.Machine

/-- NOP: STATUS.ERR becomes 0 and nothing else is written (43_header_orchestration.md R161). -/
def execNop (s : State) : Result := commit s

/-- FORMAT_HEADER: build the 128-byte header in H (43_header_orchestration.md R163). -/
def execFormatHeader (s : State) : Result :=
  reading (formattedHeader s) fun hdr =>
  commit { s with memH := s.memH.writeBlock 0 hdr }

/-- INJECT: check the capacity, format the header, write header then payload into the pixels (43_header_orchestration.md
R165). The capacity is signed, so the comparison is on integers (R162). -/
def execInject (s : State) : Result :=
  if s.caps.pCap.toNat < s.pixelCount.toNat then raise .bufferOverflow s
  else if s.caps.bCap.toNat < s.payloadLen.toNat then raise .bufferOverflow s
  else if capacity s < (s.payloadLen.toNat : Int) then raise .payloadTooLarge s
  else
    reading (formattedHeader s) fun hdr =>
    reading (payloadBytes s) fun payload =>
    reading (muxPixels s.memP 0 (hdr ++ payload)) fun channels =>
    commit { s with memH := s.memH.writeBlock 0 hdr, memP := s.memP.writeBlock 0 channels }

/-- EXTRACT: read the header and then the payload it declares (43_header_orchestration.md R166). -/
def execExtract (s : State) : Result :=
  let n := s.pixelCount.toNat
  if s.caps.pCap.toNat < n then raise .bufferOverflow s
  else if n < 128 then raise .invalidHeader s
  else
    reading (gather (pixbyteAt s.memP) 0 128) fun hdr =>
    let size := hdrSizeOf hdr
    if n - 128 < size.toNat then raise .truncatedStream s
    else if s.caps.bCap.toNat < size.toNat then raise .bufferOverflow s
    else
      reading (gather (pixbyteAt s.memP) 128 size.toNat) fun bytes =>
      commit { s with
        memH := s.memH.writeBlock 0 hdr
        hdrSize := size
        hdrNameLen := BitVec.ofNat 32 (namelen hdr)
        memB := s.memB.writeBlock 0 bytes
        payloadLen := size }

end Sys2Proof.Machine
end

