-- ==== Sys2Proof/Machine/Reader.lean ====
section
/-! DEFINITION. The PixelChannelReader: EXTRACT_SYMBOLS, READ_HEADER and READ_PAYLOAD (42_channel_reader.md R142, R143,
R145). -/

namespace Sys2Proof.Machine

/-- EXTRACT_SYMBOLS: the low bit pair of every channel of every valid pixel into S (42_channel_reader.md R142). -/
def execExtractSymbols (s : State) : Result :=
  let n := s.pixelCount.toNat
  if s.caps.pCap.toNat < n then raise .bufferOverflow s
  else if s.caps.sCap.toNat < 4 * n then raise .bufferOverflow s
  else
    reading (s.memP.readBlock 0 (4 * n)) fun channels =>
    commit { s with memS := s.memS.writeBlock 0 (channels.map demuxCh), symLen := BitVec.ofNat 32 (4 * n) }

/-- READ_HEADER: the header of pixels 0 to 127 into H, HDR_SIZE and HDR_NAME_LEN (42_channel_reader.md R143). -/
def execReadHeader (s : State) : Result :=
  let n := s.pixelCount.toNat
  if s.caps.pCap.toNat < n then raise .bufferOverflow s
  else if n < 128 then raise .invalidHeader s
  else
    reading (gather (pixbyteAt s.memP) 0 128) fun hdr =>
    commit { s with
      memH := s.memH.writeBlock 0 hdr
      hdrSize := hdrSizeOf hdr
      hdrNameLen := BitVec.ofNat 32 (namelen hdr) }

/-- READ_PAYLOAD: HDR_SIZE bytes from the pixels after the header into B (42_channel_reader.md R145). The bytes held after the
header are max(PIXEL_COUNT − 128, 0), which is the subtraction of naturals. -/
def execReadPayload (s : State) : Result :=
  let n := s.pixelCount.toNat
  let size := s.hdrSize.toNat
  if s.caps.pCap.toNat < n then raise .bufferOverflow s
  else if n - 128 < size then raise .truncatedStream s
  else if s.caps.bCap.toNat < size then raise .bufferOverflow s
  else
    reading (gather (pixbyteAt s.memP) 128 size) fun bytes =>
    commit { s with memB := s.memB.writeBlock 0 bytes, payloadLen := s.hdrSize }

end Sys2Proof.Machine
end

