-- ==== Sys2Proof/Machine/Writer.lean ====
section
/-! DEFINITION. The PixelChannelWriter: EMBED (41_channel_writer.md R122). -/

namespace Sys2Proof.Machine

/-- EMBED: write the SYM_LEN symbols of S into the low bits of PB[0 .. SYM_LEN − 1] (41_channel_writer.md R122). -/
def execEmbed (s : State) : Result :=
  let n := s.pixelCount.toNat
  let m := s.symLen.toNat
  if s.caps.pCap.toNat < n then raise .bufferOverflow s
  else if s.caps.sCap.toNat < m then raise .bufferOverflow s
  else if 4 * n < m then raise .symbolOverrun s
  else
    reading (gather (muxAt s.memP s.memS) 0 m) fun channels =>
    commit { s with memP := s.memP.writeBlock 0 channels }

end Sys2Proof.Machine
end

