-- ==== Sys2Proof/Machine/Dispatch.lean ====
section
/-! DEFINITION. One arm per command (30_encoding.md R72), each one call of the command's meaning. -/

namespace Sys2Proof.Machine

def exec (i : Instr) (s : State) : Host.Outcome State Fault Refusal :=
  match i with
  | .nop => Sys2Proof.Machine.execNop s
  | .formatHeader => Sys2Proof.Machine.execFormatHeader s
  | .symbolize => Sys2Proof.Machine.execSymbolize s
  | .symbolizeH => Sys2Proof.Machine.execSymbolizeH s
  | .desymbolize => Sys2Proof.Machine.execDesymbolize s
  | .embed => Sys2Proof.Machine.execEmbed s
  | .extractSymbols => Sys2Proof.Machine.execExtractSymbols s
  | .readHeader => Sys2Proof.Machine.execReadHeader s
  | .readPayload => Sys2Proof.Machine.execReadPayload s
  | .inject => Sys2Proof.Machine.execInject s
  | .extract => Sys2Proof.Machine.execExtract s

end Sys2Proof.Machine
end

