-- ==== Sys2Proof/Machine/HostAccess.lean ====
section
/-! DEFINITION. The host's interactions with the block (60_exceptions.md R216): register and memory accesses, a command by
a write to CMD (10_state.md R22), and a reset by the platform (70_reset_and_hazards.md R242). -/

namespace Sys2Proof.Machine

/-- A host write of `w` to CMD: "the register takes the value w, and the block then decodes w and performs the selected
command" (10_state.md R22). An illegal word performs no operation except STATUS.ERR ← 5 (30_encoding.md R74). -/
def issueCommand (w : Word) (s : State) : Result :=
  match decode w with
  | .ok i => exec i (writeReg s .cmd w)
  | .error _ => raise .illegalCommand (writeReg s .cmd w)

/-- The host gets the answer of a read (60_exceptions.md R216). -/
def reply (r : Reply) (s : State) : Result := .next { s with replies := r :: s.replies }

/-- A host register write (60_exceptions.md R216, 20_memory.md R55, R59). -/
def hostRegWrite (offset width : Nat) (w : Word) (s : State) : Result :=
  if registerAccessOk offset width then
    match regAt offset with
    | some .cmd => issueCommand w s
    | some r => .next (writeReg s r w)
    | none => .next s
  else .refused .registerAccess

/-- A host register read: no side effect on the block; a reserved offset reads 0 (10_state.md R34, 20_memory.md R59). -/
def hostRegRead (offset width : Nat) (s : State) : Result :=
  if registerAccessOk offset width then
    match regAt offset with
    | some r => reply (.word (readReg s r)) s
    | none => reply (.word 0) s
  else .refused .registerAccess

/-- A host memory write: in range it stores the element and sets its written mark (10_state.md R46, 20_memory.md R57). -/
def hostMemWrite (sp : Space) (a : Nat) (v : Byte) (s : State) : Result :=
  if a < spaceSize s.caps sp then .next (writeElement s sp a v) else .refused .indexOutOfRange

/-- A host memory read: in range, a written element is answered, an unwritten one is UNWRITTEN_READ (10_state.md R46,
20_memory.md R57). -/
def hostMemRead (sp : Space) (a : Nat) (s : State) : Result :=
  if a < spaceSize s.caps sp then reading (readElement s sp a) fun v => reply (.element v) s
  else .refused .indexOutOfRange

/-- A reset by the platform (70_reset_and_hazards.md R240 to R242): the block as after reset, with its capacities. What the
host still does and what it has got are the host's, and stay (log 7). -/
def platformReset (s : State) : State :=
  { State.resetWith s.caps with host := s.host, replies := s.replies }

/-- What the host may do while BUSY = 1: "It may only read STATUS" (70_reset_and_hazards.md R246). Reset is the platform's,
not the host's. -/
def allowedWhileBusy : HostStep → Bool
  | .regRead offset width => offset == regOffset .status && width == 4
  | .platformReset => true
  | .regWrite _ _ _ | .memWrite _ _ _ | .memRead _ _ => false

/-- One interaction. While BUSY = 1 the host's other accesses are refused (70_reset_and_hazards.md R246, 60_exceptions.md
R217). -/
def interact (h : HostStep) (s : State) : Result :=
  if s.busy && !allowedWhileBusy h then .refused .busyAccess
  else
    match h with
    | .regWrite offset width w => hostRegWrite offset width w s
    | .regRead offset width => hostRegRead offset width s
    | .memWrite sp a v => hostMemWrite sp a v s
    | .memRead sp a => hostMemRead sp a s
    | .platformReset => .next (platformReset s)

end Sys2Proof.Machine
end

