-- ==== Sys2Proof/Machine/Assembler.lean ====
section
/-! DEFINITION. The assembler's lines (30_encoding.md R76) and its pseudo-instructions (R77) as lists of host interactions,
and the host's placement of pixels (00_scope.md R17). -/

namespace Sys2Proof.Machine

/-- `<MNEMONIC>` is short for `WR CMD, <word>` (30_encoding.md R76). -/
def asmCommand (i : Instr) : HostStep := .regWrite (regOffset .cmd) 4 (encode i)

/-- `WR <REG>, <value>` (30_encoding.md R76). -/
def asmWR (r : Reg) (w : Word) : HostStep := .regWrite (regOffset r) 4 w

/-- `RD <REG>` (30_encoding.md R76). -/
def asmRD (r : Reg) : HostStep := .regRead (regOffset r) 4

/-- `MW <space>[<index>], <byte>` (30_encoding.md R76). -/
def asmMW (sp : Space) (a : Nat) (v : Byte) : HostStep := .memWrite sp a v

/-- `MR <space>[<index>]` (30_encoding.md R76). -/
def asmMR (sp : Space) (a : Nat) : HostStep := .memRead sp a

/-- `WAIT`: "In the model this is one read, because BUSY always reads 0" (30_encoding.md R77). -/
def asmWait : List HostStep := [asmRD .status]

/-- `MR <space>[a]` .. `MR <space>[a+n−1]`. -/
def asmReadFrom (sp : Space) : Nat → Nat → List HostStep
  | _, 0 => []
  | a, n + 1 => asmMR sp a :: asmReadFrom sp (a + 1) n

/-- `INFO` (30_encoding.md R77); `k` is the HDR_NAME_LEN its fifth step reads. -/
def asmInfo (k : Nat) : List HostStep :=
  [asmCommand .readHeader] ++ asmWait ++ [asmRD .status, asmRD .hdrSize, asmRD .hdrNameLen] ++
    asmReadFrom .h 4 k ++ [asmRD .capacityLo, asmRD .capacityHi]

/-- `MWS <space>[k], v0, v1, …` (30_encoding.md R77). -/
def asmMWS (sp : Space) : Nat → List Byte → List HostStep
  | _, [] => []
  | k, v :: vs => asmMW sp k v :: asmMWS sp (k + 1) vs

/-- `PIX i, r, g, b, a` (30_encoding.md R77). -/
def asmPix (i : Nat) (p : Pixel) : List HostStep := asmMWS .pb (4 * i) p.channels

/-- `FILL <space>[k..m], v` (30_encoding.md R77). -/
def asmFill (sp : Space) (k m : Nat) (v : Byte) : List HostStep :=
  asmMWS sp k (List.replicate (m + 1 - k) v)

/-- Where the host places the pixel at column x, row y of an image of width w: i = y*w + x (00_scope.md R17). PRESUMED by the
spec: "the usual meaning of row-major order [from general knowledge, not in source]". The block never uses it. -/
def pixelIndex (w x y : Nat) : Nat := y * w + x

end Sys2Proof.Machine
end

