-- ==== Sys2Proof/Machine/Step.lean ====
section
/-! DEFINITION. One step: the oldest host interaction still to come, or nothing when there is none (60_exceptions.md R215,
R216; log 1). -/

namespace Sys2Proof.Machine

/-- One step of the machine. With no interaction to come the block "is idle and all state is kept" (60_exceptions.md R215). -/
def step (s : State) : Host.Outcome State Fault Refusal :=
  match s.host with
  | [] => .next s
  | h :: rest => interact h { s with host := rest }

/-- The state in which the host's next interaction is the write of the command word to CMD. The block fetches no instructions
(10_state.md R21): this is how a command comes to it (log 1, log 9). BUSY is cleared, because a host waits for BUSY = 0
before it writes CMD (10_state.md R25). -/
def State.withFetchWord (s : State) (nbits w : Nat) : State :=
  { s with
    busy := false
    host := .regWrite 0 4 (BitVec.ofNat 32 (w % 2 ^ nbits)) :: s.host }

end Sys2Proof.Machine
end

