-- ==== Sys2Proof/Safety.lean ====
section
/-! DEFINITION. What the claims call a written block of memory, a legal state, and a safe run. -/

namespace Sys2Proof.Machine

/-- The written marks of the elements [a .. a+n−1] are set (10_state.md R46). -/
abbrev Memory.written {α : Type} (m : Memory α) (a n : Nat) : Prop := ∀ k, k < n → (m.read (a + k)).isSome = true

/-- Every memory is in canonical form and holds no element outside its space (20_memory.md R50). -/
structure State.MemoriesLegal (s : State) : Prop where
  wfP : s.memP.wf
  wfB : s.memB.wf
  wfH : s.memH.wf
  wfN : s.memN.wf
  wfS : s.memS.wf
  inP : s.memP.within (spaceSize s.caps .pb)
  inB : s.memB.within (spaceSize s.caps .b)
  inH : s.memH.within (spaceSize s.caps .h)
  inN : s.memN.within (spaceSize s.caps .n)
  inS : s.memS.within (spaceSize s.caps .s)

/-- The registers hold what the spec says they can hold: ERR is 0 to 7 and never 4 (10_state.md R24), BUSY reads 0 (R25),
HDR_NAME_LEN is at most 124 (R32), and N_CAP is at least 124 (00_scope.md R9). -/
structure State.RegistersLegal (s : State) : Prop where
  errSmall : s.err.toNat ≤ 7
  errNotReserved : s.err ≠ 4#4
  notBusy : s.busy = false
  nameLenSmall : s.hdrNameLen.toNat ≤ 124
  nCapLarge : 124 ≤ s.caps.nCap.toNat

/-- The invariant of the machine. -/
def State.Inv (s : State) : Prop := s.MemoriesLegal ∧ s.RegistersLegal

/-- A run of `k` steps that meets no fault and no refusal (60_exceptions.md R217). -/
def SafeFor (k : Nat) (s : State) : Prop := ∃ t : State, Host.Core.run core k s = .next t

end Sys2Proof.Machine
end

