-- ==== Sys2Proof/Certificates/Slice0/Obligations.lean ====
section
/-! DEFINITION. The statements about the block for the provers, from the numbered rules of spec/. The helpers before them are
written from the rules' own formulas, not from the model's functions. -/

open Sys2Proof Sys2Proof.Machine

namespace Sys2Proof.Claims

/-- The opcode map (30_encoding.md R72): every command with its only legal word. -/
def opcodeMap : List (Instr × Word) :=
  [(.nop, 0x00000000), (.formatHeader, 0x00000001), (.symbolize, 0x00000002), (.symbolizeH, 0x00000012),
   (.desymbolize, 0x00000003), (.embed, 0x00000004), (.extractSymbols, 0x00000005), (.readHeader, 0x00000006),
   (.readPayload, 0x00000007), (.inject, 0x00000008), (.extract, 0x00000009)]

/-- The byte that pixel `j` carries in the low bits of its channels (30_encoding.md R79, R80, R86), if all four are written. -/
def carried (p : Memory Byte) (j : Nat) : Option Byte :=
  match p.read (4 * j), p.read (4 * j + 1), p.read (4 * j + 2), p.read (4 * j + 3) with
  | some r, some g, some b, some a =>
    some ((r &&& 3) + ((g &&& 3) <<< 2) + ((b &&& 3) <<< 4) + ((a &&& 3) <<< 6))
  | _, _, _, _ => none

/-- A channel `c` with symbol `q` of the byte `b` in its two low bits (41_channel_writer.md R121). -/
def withSymbolOf (c b : Byte) (q : Nat) : Byte := (c &&& 0xFC) ||| ((b >>> (2 * q)) &&& 3)

/-- The four bytes H[0..3] read as the size field, little-endian (20_memory.md R53, 30_encoding.md R83). -/
def isSizeField (h : Memory Byte) (v : Word) : Prop :=
  ∀ i, i < 4 → h.read i = some (v.extractLsb' (8 * i) 8)

/-- `k` is the length of the name in H[4..127] with every trailing 0x00 byte stripped (30_encoding.md R83). -/
def isNameLength (h : Memory Byte) (k : Nat) : Prop :=
  k ≤ 124 ∧ (∀ j, k ≤ j → j < 124 → h.read (4 + j) = some 0) ∧ (k ≠ 0 → h.read (4 + (k - 1)) ≠ some 0)

/-- H[0..127] is fmt_header(v, n, len) (30_encoding.md R82). -/
def isFormatted (h : Memory Byte) (v : Word) (n : Memory Byte) (len : Nat) : Prop :=
  isSizeField h v ∧ (∀ j, j < min len 124 → h.read (4 + j) = n.read j) ∧
  (∀ j, min len 124 ≤ j → j < 124 → h.read (4 + j) = some 0)

/-- The codes each command can leave in STATUS.ERR (60_exceptions.md R201, R202). -/
def possibleCodes : Instr → List (BitVec 4)
  | .nop | .formatHeader => [0]
  | .symbolize | .symbolizeH | .extractSymbols => [0, 6]
  | .desymbolize | .readPayload => [0, 3, 6]
  | .embed => [0, 6, 7]
  | .readHeader => [0, 2, 6]
  | .inject => [0, 1, 6]
  | .extract => [0, 2, 3, 6]

/-- The number of elements of each space (20_memory.md R50). -/
def spaceLength (c : Caps) : Space → Nat
  | .pb => 4 * c.pCap.toNat
  | .b => c.bCap.toNat
  | .h => 128
  | .n => c.nCap.toNat
  | .s => c.sCap.toNat

/-- The element of each space as the host reads it, if it is written: a symbol with bits 7:2 equal to 0 (20_memory.md R50, R52). -/
def elementAt (s : State) (sp : Space) (a : Nat) : Option Byte :=
  match sp with
  | .pb => s.memP.read a
  | .b => s.memB.read a
  | .h => s.memH.read a
  | .n => s.memN.read a
  | .s => (s.memS.read a).map fun x => 0#6 ++ x

/-- The registers a host can read, with their offsets and values (10_state.md R20, R22 to R33). -/
def registerMap (s : State) : List (Nat × Word) :=
  [(0x00, s.cmd), (0x04, (if s.busy then 0x100#32 else 0#32) + s.err.setWidth 32), (0x08, s.pixelCount),
   (0x0C, s.payloadLen), (0x10, s.nameLen), (0x14, s.symLen), (0x18, s.hdrSize), (0x1C, s.hdrNameLen),
   (0x20, s.pixelCount - 128), (0x24, if s.pixelCount.toNat < 128 then 0xFFFFFFFF#32 else 0#32),
   (0x28, s.caps.pCap), (0x2C, s.caps.bCap), (0x30, s.caps.sCap), (0x34, s.caps.nCap)]

/-- The registers after reset (70_reset_and_hazards.md R240). -/
def resetTable : List (Nat × Word) :=
  [(0x00, 0x00000000), (0x04, 0x00000000), (0x08, 0), (0x0C, 0), (0x10, 0), (0x14, 0), (0x18, 0), (0x1C, 0),
   (0x20, 0xFFFFFF80), (0x24, 0xFFFFFFFF), (0x28, Config.pCap), (0x2C, Config.bCap), (0x30, Config.sCap),
   (0x34, Config.nCap)]

/-- The host interactions that write the bytes `ws` to B. -/
def writesToB (ws : List (Nat × Byte)) : List HostStep := ws.map fun c => .memWrite .b c.1 c.2

/-- Every element INJECT reads is written (43_header_orchestration.md R165). -/
def injectInputsWritten (s : State) : Prop :=
  s.memN.written 0 (min s.nameLen.toNat 124) ∧ s.memB.written 0 s.payloadLen.toNat ∧
  s.memP.written 0 (4 * (128 + s.payloadLen.toNat))

end Sys2Proof.Claims

open Sys2Proof.Claims

/-! Encoding -/

/-- Each word of the opcode map, written out, decodes to its command (30_encoding.md R72). -/
def Obligations.WordsOfTheOpcodeMapDecode : Prop :=
  decode 0b00000000000000000000000000000000#32 = .ok .nop ∧
  decode 0b00000000000000000000000000000001#32 = .ok .formatHeader ∧
  decode 0b00000000000000000000000000000010#32 = .ok .symbolize ∧
  decode 0b00000000000000000000000000010010#32 = .ok .symbolizeH ∧
  decode 0b00000000000000000000000000000011#32 = .ok .desymbolize ∧
  decode 0b00000000000000000000000000000100#32 = .ok .embed ∧
  decode 0b00000000000000000000000000000101#32 = .ok .extractSymbols ∧
  decode 0b00000000000000000000000000000110#32 = .ok .readHeader ∧
  decode 0b00000000000000000000000000000111#32 = .ok .readPayload ∧
  decode 0b00000000000000000000000000001000#32 = .ok .inject ∧
  decode 0b00000000000000000000000000001001#32 = .ok .extract

/-- A word decodes to a command exactly when the opcode map pairs them: the word column "gives the only legal command word for
each row" (30_encoding.md R72). -/
def Obligations.OpcodeMapIsExact : Prop :=
  ∀ (w : Word) (i : Instr), decode w = .ok i ↔ (i, w) ∈ opcodeMap

/-- Decode and encode agree on every word and every command, and every command is well formed. -/
def Obligations.DecodeInvertsEncode : Prop :=
  ∀ (w : Word) (i : Instr), (decode w = .ok i ↔ encode i = w) ∧ i.wf = true

/-- The illegal words are the three cases of 30_encoding.md R74, and writing one to CMD performs no operation except
STATUS.ERR ← 5; CMD takes the word (10_state.md R22). -/
def Obligations.IllegalWordsOnlySetErr : Prop :=
  (∀ w : Word, (∀ i, (i, w) ∉ opcodeMap) ↔
    (w.extractLsb' 5 27 ≠ 0#27 ∨ 0xA ≤ (w.extractLsb' 0 4).toNat ∨
      (w.extractLsb' 4 1 = 1#1 ∧ w.extractLsb' 0 4 ≠ 2#4))) ∧
  (∀ (s : State) (w : Word) (rest : List HostStep), s.busy = false → s.host = .regWrite 0x00 4 w :: rest →
    (∀ i, (i, w) ∉ opcodeMap) → step s = .next { s with host := rest, cmd := w, err := 5 })

/-! Steps of the host -/

/-- A host write to CMD of a word that decodes to a command: the register takes the word and the command is performed, in one
step (10_state.md R22). That the host's interactions wait in a list is the model's choice (log 1). -/
def Obligations.StepRunsTheDecodedCommand : Prop :=
  ∀ (s : State) (w : Word) (i : Instr) (rest : List HostStep), s.busy = false →
    s.host = .regWrite 0x00 4 w :: rest → decode w = .ok i →
    step s = exec i { s with cmd := w, host := rest }

/-- With no host interaction to come the block is idle and all state is kept (60_exceptions.md R215; log 1). -/
def Obligations.IdleBlockKeepsItsState : Prop :=
  ∀ s : State, s.host = [] → step s = .next s

/-- A host read of a register gives its value and changes nothing in the block (10_state.md R20 to R33, 20_memory.md R59). -/
def Obligations.HostReadsARegister : Prop :=
  ∀ (s : State) (offset : Nat) (w : Word) (rest : List HostStep), s.busy = false →
    (offset, w) ∈ registerMap s → s.host = .regRead offset 4 :: rest →
    step s = .next { s with host := rest, replies := .word w :: s.replies }

/-- A host write to a read-write register other than CMD stores the word; one to a read-only register is ignored
(10_state.md R20, 20_memory.md R59). -/
def Obligations.HostWritesARegister : Prop :=
  ∀ (s : State) (offset : Nat) (w : Word) (rest : List HostStep), s.busy = false →
    s.host = .regWrite offset 4 w :: rest →
    (offset = 0x08 → step s = .next { s with host := rest, pixelCount := w }) ∧
    (offset = 0x0C → step s = .next { s with host := rest, payloadLen := w }) ∧
    (offset = 0x10 → step s = .next { s with host := rest, nameLen := w }) ∧
    (offset = 0x14 → step s = .next { s with host := rest, symLen := w }) ∧
    (offset = 0x18 → step s = .next { s with host := rest, hdrSize := w }) ∧
    (offset ∈ [0x04, 0x1C, 0x20, 0x24, 0x28, 0x2C, 0x30, 0x34] → step s = .next { s with host := rest })

/-- Reserved offsets read 0 and ignore writes; any access outside 0x00 to 0xFC or not an aligned 32-bit word is refused
(10_state.md R34). -/
def Obligations.ReservedOffsetsAndBadAccesses : Prop :=
  ∀ (s : State) (offset width : Nat) (w : Word) (rest : List HostStep), s.busy = false →
    (0x38 ≤ offset → offset ≤ 0xFC → offset % 4 = 0 →
      (s.host = .regRead offset 4 :: rest →
        step s = .next { s with host := rest, replies := .word 0 :: s.replies }) ∧
      (s.host = .regWrite offset 4 w :: rest → step s = .next { s with host := rest })) ∧
    (0xFC < offset ∨ offset % 4 ≠ 0 ∨ width ≠ 4 →
      (s.host = .regRead offset width :: rest → step s = .refused .registerAccess) ∧
      (s.host = .regWrite offset width w :: rest → step s = .refused .registerAccess))

/-- A host memory access outside its space's range, or a register access outside offsets 0x00 to 0xFC, is refused
(20_memory.md R57). -/
def Obligations.OutOfRangeAccessesAreRefused : Prop :=
  ∀ (s : State) (sp : Space) (a width : Nat) (v : Byte) (w : Word) (rest : List HostStep), s.busy = false →
    (spaceLength s.caps sp ≤ a →
      (s.host = .memRead sp a :: rest → step s = .refused .indexOutOfRange) ∧
      (s.host = .memWrite sp a v :: rest → step s = .refused .indexOutOfRange)) ∧
    (0xFC < a →
      (s.host = .regRead a width :: rest → step s = .refused .registerAccess) ∧
      (s.host = .regWrite a width w :: rest → step s = .refused .registerAccess))

/-- The host view of S (20_memory.md R52): a read gives the symbol with bits 7:2 equal to 0, a write keeps v & 3 and leaves
every other symbol and all else alone. -/
def Obligations.HostViewOfSymbolMemory : Prop :=
  ∀ (s : State) (k : Nat) (rest : List HostStep), s.busy = false → k < s.caps.sCap.toNat →
    (∀ x, s.memS.read k = some x → s.host = .memRead .s k :: rest →
      step s = .next { s with host := rest, replies := .element (0#6 ++ x) :: s.replies }) ∧
    (∀ v, s.host = .memWrite .s k v :: rest →
      ∃ t, step s = .next t ∧ t.memS.read k = some ((v &&& 3).extractLsb' 0 2) ∧
        (∀ j, j ≠ k → t.memS.read j = s.memS.read j) ∧ t = { s with host := rest, memS := t.memS })

/-- What the host writes to an element of P, B, H or N it reads back, and the write touches no other element of any space and
no register (20_memory.md R50, R62). -/
def Obligations.HostWriteIsReadBack : Prop :=
  ∀ (s : State) (sp : Space) (a : Nat) (v : Byte) (rest : List HostStep), s.busy = false → sp ≠ .s →
    a < spaceLength s.caps sp → s.host = .memWrite sp a v :: .memRead sp a :: rest →
    ∃ t u, step s = .next t ∧ step t = .next u ∧ u = { t with host := rest, replies := .element v :: s.replies } ∧
      (∀ sp' a', (sp', a') ≠ (sp, a) → elementAt t sp' a' = elementAt s sp' a') ∧
      t = { s with host := .memRead sp a :: rest, memP := t.memP, memB := t.memB, memH := t.memH, memN := t.memN } ∧
      (sp ≠ .pb → t.memP = s.memP) ∧ (sp ≠ .b → t.memB = s.memB) ∧ (sp ≠ .h → t.memH = s.memH) ∧
      (sp ≠ .n → t.memN = s.memN)

/-- A host read in range of an element that has never been written since reset is UNWRITTEN_READ; of a written element it
gives the element (a symbol of S with bits 7:2 equal to 0) and changes nothing in the block (10_state.md R46, 20_memory.md R52, R59). -/
def Obligations.HostReadOfAnElement : Prop :=
  ∀ (s : State) (sp : Space) (a : Nat) (rest : List HostStep), s.busy = false → a < spaceLength s.caps sp →
    s.host = .memRead sp a :: rest →
    (elementAt s sp a = none → step s = .fault .unwrittenRead) ∧
    (∀ v, elementAt s sp a = some v →
      step s = .next { s with host := rest, replies := .element v :: s.replies })

/-- CAPACITY_HI and CAPACITY_LO together hold PIXEL_COUNT − 128 as a signed 64-bit number (10_state.md R31). That the
representation is two's complement the spec marks as general knowledge (93_implementation_defined.md G3). -/
def Obligations.CapacityRegistersHoldCapacity : Prop :=
  ∀ s : State, (readReg s .capacityHi ++ readReg s .capacityLo : BitVec 64).toInt = (s.pixelCount.toNat : Int) - 128

/-- While BUSY = 1 the host may only read STATUS: any other access is refused (70_reset_and_hazards.md R246). The model never
sets BUSY (log 6). -/
def Obligations.BusyBlockAdmitsOnlyStatusReads : Prop :=
  ∀ (s : State) (offset width a : Nat) (sp : Space) (v : Byte) (w : Word) (rest : List HostStep), s.busy = true →
    (s.host = .regRead 0x04 4 :: rest →
      step s = .next { s with host := rest, replies := .word (0x100#32 + s.err.setWidth 32) :: s.replies }) ∧
    (offset ≠ 0x04 ∨ width ≠ 4 → s.host = .regRead offset width :: rest → step s = .refused .busyAccess) ∧
    (s.host = .regWrite offset width w :: rest → step s = .refused .busyAccess) ∧
    (s.host = .memRead sp a :: rest → step s = .refused .busyAccess) ∧
    (s.host = .memWrite sp a v :: rest → step s = .refused .busyAccess)

/-! Reset -/

/-- What a read of each register, and of each reserved offset, gives after reset (70_reset_and_hazards.md R240). -/
def Obligations.ResetRegisterValues : Prop :=
  ∀ (offset : Nat) (w : Word),
    ((offset, w) ∈ resetTable ∨ (0x38 ≤ offset ∧ offset ≤ 0xFC ∧ offset % 4 = 0 ∧ w = 0)) →
    step { State.reset with host := [.regRead offset 4] } = .next { State.reset with replies := [.word w] }

/-- After reset no element of any memory has a value: a host read of any element in range, of a block of any capacities, is
UNWRITTEN_READ (70_reset_and_hazards.md R241). -/
def Obligations.ResetMemoriesHoldNothing : Prop :=
  ∀ (c : Caps) (sp : Space) (a : Nat), a < spaceLength c sp →
    step { State.resetWith c with host := [.memRead sp a] } = .fault .unwrittenRead

/-- A reset by the platform gives the block's reset state with its capacities (70_reset_and_hazards.md R240 to R242). That the
host's list and its replies stay is the model's choice (log 7). -/
def Obligations.PlatformResetGivesTheResetState : Prop :=
  ∀ (s : State) (rest : List HostStep), s.host = .platformReset :: rest →
    step s = .next { State.resetWith s.caps with host := rest, replies := s.replies }

/-- The state after reset meets the invariant. -/
def Obligations.ResetMeetsTheInvariant : Prop := State.reset.Inv

/-- Every step keeps the invariant: memories in canonical form and inside their spaces, ERR a code the core can produce, BUSY
0, HDR_NAME_LEN at most 124 (10_state.md R24, R25, R32; 20_memory.md R50). -/
def Obligations.StepKeepsTheInvariant : Prop :=
  ∀ s t : State, s.Inv → step s = .next t → t.Inv

/-- The capacity registers always read the value of their parameters: no step changes them (10_state.md R33). -/
def Obligations.StepKeepsTheCapacities : Prop :=
  ∀ s t : State, step s = .next t → t.caps = s.caps

/-- STATUS.ERR is written by every command and by no other event but reset: another host step keeps it (10_state.md R24). -/
def Obligations.OnlyCommandsWriteErr : Prop :=
  ∀ (s t : State) (h : HostStep) (rest : List HostStep), s.host = h :: rest → step s = .next t →
    h ≠ .platformReset → (∀ w, h ≠ .regWrite 0x00 4 w) → t.err = s.err

/-! Commands -/

/-- NOP sets STATUS.ERR to 0 and writes nothing else (43_header_orchestration.md R161). -/
def Obligations.NopOnlyClearsErr : Prop :=
  encode .nop = 0x00000000#32 ∧ ∀ s : State, exec .nop s = .next { s with err := 0 }

/-- FORMAT_HEADER builds the 128-byte header in H and changes nothing else (43_header_orchestration.md R163). -/
def Obligations.FormatHeaderBuildsTheHeader : Prop :=
  encode .formatHeader = 0x00000001#32 ∧
  ∀ s : State, s.memN.written 0 (min s.nameLen.toNat 124) →
    ∃ t, exec .formatHeader s = .next t ∧ isFormatted t.memH s.payloadLen s.memN s.nameLen.toNat ∧
      (∀ a, 128 ≤ a → t.memH.read a = s.memH.read a) ∧ t = { s with memH := t.memH, err := 0 }

/-- SYMBOLIZE (hp = false) and SYMBOLIZE.H (hp = true): the errors in their order; else the bytes of H (for .H) and of B are
serialized into S, symbol 4j + q from bits 2q+1:2q of byte j, and SYM_LEN is the length (40_bitstream_codec.md R101). -/
def Obligations.SymbolizeSerializesBytes : Prop :=
  encode .symbolize = 0x00000002#32 ∧ encode .symbolizeH = 0x00000012#32 ∧
  ∀ (s : State) (hp : Bool) (i : Instr) (hb : Nat),
    (hp = false ∧ i = .symbolize ∧ hb = 0 ∨ hp = true ∧ i = .symbolizeH ∧ hb = 128) →
    (s.caps.bCap.toNat < s.payloadLen.toNat → exec i s = .next { s with err := 6 }) ∧
    (s.payloadLen.toNat ≤ s.caps.bCap.toNat → s.caps.sCap.toNat < 4 * (hb + s.payloadLen.toNat) →
      exec i s = .next { s with err := 6 }) ∧
    (s.payloadLen.toNat ≤ s.caps.bCap.toNat → 4 * (hb + s.payloadLen.toNat) ≤ s.caps.sCap.toNat →
      s.memH.written 0 hb → s.memB.written 0 s.payloadLen.toNat →
      ∃ t, exec i s = .next t ∧
        (∀ j q d, j < hb + s.payloadLen.toNat → q < 4 →
          (if j < hb then s.memH.read j else s.memB.read (j - hb)) = some d →
          t.memS.read (4 * j + q) = some ((d >>> (2 * q)).setWidth 2)) ∧
        (∀ k, 4 * (hb + s.payloadLen.toNat) ≤ k → t.memS.read k = s.memS.read k) ∧
        t.symLen.toNat = 4 * (hb + s.payloadLen.toNat) ∧
        t = { s with memS := t.memS, symLen := t.symLen, err := 0 })

/-- DESYMBOLIZE: the errors in their order; else byte j of B is packed from symbols 4j to 4j+3 of S, for j below PAYLOAD_LEN,
and nothing else changes (40_bitstream_codec.md R102). -/
def Obligations.DesymbolizeReassemblesBytes : Prop :=
  encode .desymbolize = 0x00000003#32 ∧
  ∀ s : State,
    (s.caps.sCap.toNat < s.symLen.toNat → exec .desymbolize s = .next { s with err := 6 }) ∧
    (s.symLen.toNat ≤ s.caps.sCap.toNat → s.symLen.toNat < 4 * s.payloadLen.toNat →
      exec .desymbolize s = .next { s with err := 3 }) ∧
    (s.symLen.toNat ≤ s.caps.sCap.toNat → 4 * s.payloadLen.toNat ≤ s.symLen.toNat →
      s.caps.bCap.toNat < s.payloadLen.toNat → exec .desymbolize s = .next { s with err := 6 }) ∧
    (s.symLen.toNat ≤ s.caps.sCap.toNat → 4 * s.payloadLen.toNat ≤ s.symLen.toNat →
      s.payloadLen.toNat ≤ s.caps.bCap.toNat → s.memS.written 0 (4 * s.payloadLen.toNat) →
      ∃ t, exec .desymbolize s = .next t ∧
        (∀ j x0 x1 x2 x3, j < s.payloadLen.toNat → s.memS.read (4 * j) = some x0 →
          s.memS.read (4 * j + 1) = some x1 → s.memS.read (4 * j + 2) = some x2 → s.memS.read (4 * j + 3) = some x3 →
          t.memB.read j = some (x0.setWidth 8 + (x1.setWidth 8 <<< 2) + (x2.setWidth 8 <<< 4) + (x3.setWidth 8 <<< 6))) ∧
        (∀ a, s.payloadLen.toNat ≤ a → t.memB.read a = s.memB.read a) ∧
        t = { s with memB := t.memB, err := 0 })

/-- EMBED: the errors in their order; else channel PB[k] becomes (PB[k] & 0xFC) | S[k] for k below SYM_LEN, every other channel
is unchanged and so is everything else (41_channel_writer.md R122). -/
def Obligations.EmbedWritesSymbolsIntoLowBits : Prop :=
  encode .embed = 0x00000004#32 ∧
  ∀ s : State,
    (s.caps.pCap.toNat < s.pixelCount.toNat → exec .embed s = .next { s with err := 6 }) ∧
    (s.pixelCount.toNat ≤ s.caps.pCap.toNat → s.caps.sCap.toNat < s.symLen.toNat →
      exec .embed s = .next { s with err := 6 }) ∧
    (s.pixelCount.toNat ≤ s.caps.pCap.toNat → s.symLen.toNat ≤ s.caps.sCap.toNat →
      4 * s.pixelCount.toNat < s.symLen.toNat → exec .embed s = .next { s with err := 7 }) ∧
    (s.pixelCount.toNat ≤ s.caps.pCap.toNat → s.symLen.toNat ≤ s.caps.sCap.toNat →
      s.symLen.toNat ≤ 4 * s.pixelCount.toNat → s.memP.written 0 s.symLen.toNat → s.memS.written 0 s.symLen.toNat →
      ∃ t, exec .embed s = .next t ∧
        (∀ k c x, k < s.symLen.toNat → s.memP.read k = some c → s.memS.read k = some x →
          t.memP.read k = some ((c &&& 0xFC) ||| x.setWidth 8)) ∧
        (∀ k, s.symLen.toNat ≤ k → t.memP.read k = s.memP.read k) ∧
        t = { s with memP := t.memP, err := 0 })

/-- EXTRACT_SYMBOLS: the errors in their order; else S[k] is the low bit pair of PB[k] for every channel of every valid pixel,
SYM_LEN is 4 × PIXEL_COUNT, and nothing else changes (42_channel_reader.md R142). -/
def Obligations.ExtractSymbolsReadsLowBits : Prop :=
  encode .extractSymbols = 0x00000005#32 ∧
  ∀ s : State,
    (s.caps.pCap.toNat < s.pixelCount.toNat → exec .extractSymbols s = .next { s with err := 6 }) ∧
    (s.pixelCount.toNat ≤ s.caps.pCap.toNat → s.caps.sCap.toNat < 4 * s.pixelCount.toNat →
      exec .extractSymbols s = .next { s with err := 6 }) ∧
    (s.pixelCount.toNat ≤ s.caps.pCap.toNat → 4 * s.pixelCount.toNat ≤ s.caps.sCap.toNat →
      s.memP.written 0 (4 * s.pixelCount.toNat) →
      ∃ t, exec .extractSymbols s = .next t ∧
        (∀ k c, k < 4 * s.pixelCount.toNat → s.memP.read k = some c →
          t.memS.read k = some ((c &&& 3).setWidth 2)) ∧
        (∀ k, 4 * s.pixelCount.toNat ≤ k → t.memS.read k = s.memS.read k) ∧
        t.symLen.toNat = 4 * s.pixelCount.toNat ∧
        t = { s with memS := t.memS, symLen := t.symLen, err := 0 })

/-- READ_HEADER: the errors in their order; else H[j] is the byte pixel j carries, HDR_SIZE is the size field of H,
HDR_NAME_LEN the length of its name without trailing zeros, and nothing else changes (42_channel_reader.md R143). -/
def Obligations.ReadHeaderRecoversTheHeader : Prop :=
  encode .readHeader = 0x00000006#32 ∧
  ∀ s : State,
    (s.caps.pCap.toNat < s.pixelCount.toNat → exec .readHeader s = .next { s with err := 6 }) ∧
    (s.pixelCount.toNat ≤ s.caps.pCap.toNat → s.pixelCount.toNat < 128 →
      exec .readHeader s = .next { s with err := 2 }) ∧
    (s.pixelCount.toNat ≤ s.caps.pCap.toNat → 128 ≤ s.pixelCount.toNat → s.memP.written 0 512 →
      ∃ t, exec .readHeader s = .next t ∧ (∀ j, j < 128 → t.memH.read j = carried s.memP j) ∧
        isSizeField t.memH t.hdrSize ∧ isNameLength t.memH t.hdrNameLen.toNat ∧
        (∀ a, 128 ≤ a → t.memH.read a = s.memH.read a) ∧
        t = { s with memH := t.memH, hdrSize := t.hdrSize, hdrNameLen := t.hdrNameLen, err := 0 })

/-- READ_PAYLOAD: the errors in their order; else B[j] is the byte pixel 128 + j carries for j below HDR_SIZE, PAYLOAD_LEN is
HDR_SIZE, and nothing else changes (42_channel_reader.md R145). -/
def Obligations.ReadPayloadRecoversThePayload : Prop :=
  encode .readPayload = 0x00000007#32 ∧
  ∀ s : State,
    (s.caps.pCap.toNat < s.pixelCount.toNat → exec .readPayload s = .next { s with err := 6 }) ∧
    (s.pixelCount.toNat ≤ s.caps.pCap.toNat → max ((s.pixelCount.toNat : Int) - 128) 0 < (s.hdrSize.toNat : Int) →
      exec .readPayload s = .next { s with err := 3 }) ∧
    (s.pixelCount.toNat ≤ s.caps.pCap.toNat → (s.hdrSize.toNat : Int) ≤ max ((s.pixelCount.toNat : Int) - 128) 0 →
      s.caps.bCap.toNat < s.hdrSize.toNat → exec .readPayload s = .next { s with err := 6 }) ∧
    (s.pixelCount.toNat ≤ s.caps.pCap.toNat → (s.hdrSize.toNat : Int) ≤ max ((s.pixelCount.toNat : Int) - 128) 0 →
      s.hdrSize.toNat ≤ s.caps.bCap.toNat → s.memP.written 512 (4 * s.hdrSize.toNat) →
      ∃ t, exec .readPayload s = .next t ∧
        (∀ j, j < s.hdrSize.toNat → t.memB.read j = carried s.memP (128 + j)) ∧
        (∀ a, s.hdrSize.toNat ≤ a → t.memB.read a = s.memB.read a) ∧
        t = { s with memB := t.memB, payloadLen := s.hdrSize, err := 0 })

/-- INJECT: the errors in their order; else the formatted header is in H, pixels 0 to 127 carry it and pixels 128 to 127 + L the
payload in their low bits, every other channel is unchanged and so is everything else (43_header_orchestration.md R165). -/
def Obligations.InjectEncodesHeaderAndPayload : Prop :=
  encode .inject = 0x00000008#32 ∧
  ∀ s : State,
    (s.caps.pCap.toNat < s.pixelCount.toNat → exec .inject s = .next { s with err := 6 }) ∧
    (s.pixelCount.toNat ≤ s.caps.pCap.toNat → s.caps.bCap.toNat < s.payloadLen.toNat →
      exec .inject s = .next { s with err := 6 }) ∧
    (s.pixelCount.toNat ≤ s.caps.pCap.toNat → s.payloadLen.toNat ≤ s.caps.bCap.toNat →
      (s.pixelCount.toNat : Int) - 128 < (s.payloadLen.toNat : Int) → exec .inject s = .next { s with err := 1 }) ∧
    (s.pixelCount.toNat ≤ s.caps.pCap.toNat → s.payloadLen.toNat ≤ s.caps.bCap.toNat →
      (s.payloadLen.toNat : Int) ≤ (s.pixelCount.toNat : Int) - 128 → injectInputsWritten s →
      ∃ t, exec .inject s = .next t ∧ isFormatted t.memH s.payloadLen s.memN s.nameLen.toNat ∧
        (∀ j q c b, j < 128 → q < 4 → s.memP.read (4 * j + q) = some c → t.memH.read j = some b →
          t.memP.read (4 * j + q) = some (withSymbolOf c b q)) ∧
        (∀ j q c b, j < s.payloadLen.toNat → q < 4 → s.memP.read (4 * (128 + j) + q) = some c →
          s.memB.read j = some b → t.memP.read (4 * (128 + j) + q) = some (withSymbolOf c b q)) ∧
        (∀ k, 4 * (128 + s.payloadLen.toNat) ≤ k → t.memP.read k = s.memP.read k) ∧
        (∀ a, 128 ≤ a → t.memH.read a = s.memH.read a) ∧
        t = { s with memH := t.memH, memP := t.memP, err := 0 })

/-- EXTRACT: the errors in their order, where `size` is the size field of the header the pixels carry; else H, HDR_SIZE,
HDR_NAME_LEN, B and PAYLOAD_LEN hold the recovered header and payload, and nothing else changes
(43_header_orchestration.md R166). -/
def Obligations.ExtractDecodesHeaderAndPayload : Prop :=
  encode .extract = 0x00000009#32 ∧
  ∀ s : State,
    (s.caps.pCap.toNat < s.pixelCount.toNat → exec .extract s = .next { s with err := 6 }) ∧
    (s.pixelCount.toNat ≤ s.caps.pCap.toNat → s.pixelCount.toNat < 128 → exec .extract s = .next { s with err := 2 }) ∧
    (s.pixelCount.toNat ≤ s.caps.pCap.toNat → 128 ≤ s.pixelCount.toNat → s.memP.written 0 512 →
      ∀ size : Word, (∀ i, i < 4 → carried s.memP i = some (size.extractLsb' (8 * i) 8)) →
      ((s.pixelCount.toNat : Int) - 128 < (size.toNat : Int) → exec .extract s = .next { s with err := 3 }) ∧
      ((size.toNat : Int) ≤ (s.pixelCount.toNat : Int) - 128 → s.caps.bCap.toNat < size.toNat →
        exec .extract s = .next { s with err := 6 }) ∧
      ((size.toNat : Int) ≤ (s.pixelCount.toNat : Int) - 128 → size.toNat ≤ s.caps.bCap.toNat →
        s.memP.written 512 (4 * size.toNat) →
        ∃ t, exec .extract s = .next t ∧ (∀ j, j < 128 → t.memH.read j = carried s.memP j) ∧
          isNameLength t.memH t.hdrNameLen.toNat ∧
          (∀ j, j < size.toNat → t.memB.read j = carried s.memP (128 + j)) ∧
          (∀ a, 128 ≤ a → t.memH.read a = s.memH.read a) ∧
          (∀ a, size.toNat ≤ a → t.memB.read a = s.memB.read a) ∧
          t = { s with
            memH := t.memH, hdrSize := size, hdrNameLen := t.hdrNameLen, memB := t.memB, payloadLen := size,
            err := 0 }))

/-! All commands -/

/-- Errors are precise: a command that leaves STATUS.ERR nonzero has raised an error, STATUS.ERR holds that error's code, and no
other register or memory element has changed (60_exceptions.md R203). -/
def Obligations.ErrorsChangeOnlyErr : Prop :=
  ∀ (i : Instr) (s t : State), exec i s = .next t → t.err ≠ 0 →
    ∃ e : ErrCode, e ≠ .ok ∧ e ≠ .nameDecode ∧ e ≠ .illegalCommand ∧ t = { s with err := errCode e }

/-- STATUS.ERR after a command is one of the codes the tables give for that command; code 4 and codes 8 to 15 are never produced
(60_exceptions.md R201, R202; 10_state.md R24). -/
def Obligations.ErrorCodesOfEachCommand : Prop :=
  ∀ (i : Instr) (s t : State), exec i s = .next t → t.err ∈ possibleCodes i

/-- No command is stuck or refused: it answers a next state, or the model fault UNWRITTEN_READ (60_exceptions.md R217). -/
def Obligations.CommandsAreNeverStuck : Prop :=
  ∀ (i : Instr) (s : State), (∃ t, exec i s = .next t) ∨ exec i s = .fault .unwrittenRead

/-- A command is UNWRITTEN_READ exactly when its checks pass as far as it reads and an element it reads is unwritten
(10_state.md R46, with each command's own rule for what it reads). That the checks come before the reads is log 8. -/
def Obligations.CommandsFaultExactlyOnUnwrittenReads : Prop :=
  ∀ s : State,
    let n := s.pixelCount.toNat
    let len := s.payloadLen.toNat
    let m := s.symLen.toNat
    let size := s.hdrSize.toNat
    (exec .nop s ≠ .fault .unwrittenRead) ∧
    (exec .formatHeader s = .fault .unwrittenRead ↔ ¬ s.memN.written 0 (min s.nameLen.toNat 124)) ∧
    (exec .symbolize s = .fault .unwrittenRead ↔
      len ≤ s.caps.bCap.toNat ∧ 4 * len ≤ s.caps.sCap.toNat ∧ ¬ s.memB.written 0 len) ∧
    (exec .symbolizeH s = .fault .unwrittenRead ↔
      len ≤ s.caps.bCap.toNat ∧ 4 * (128 + len) ≤ s.caps.sCap.toNat ∧
        ¬ (s.memH.written 0 128 ∧ s.memB.written 0 len)) ∧
    (exec .desymbolize s = .fault .unwrittenRead ↔
      m ≤ s.caps.sCap.toNat ∧ 4 * len ≤ m ∧ len ≤ s.caps.bCap.toNat ∧ ¬ s.memS.written 0 (4 * len)) ∧
    (exec .embed s = .fault .unwrittenRead ↔
      n ≤ s.caps.pCap.toNat ∧ m ≤ s.caps.sCap.toNat ∧ m ≤ 4 * n ∧ ¬ (s.memP.written 0 m ∧ s.memS.written 0 m)) ∧
    (exec .extractSymbols s = .fault .unwrittenRead ↔
      n ≤ s.caps.pCap.toNat ∧ 4 * n ≤ s.caps.sCap.toNat ∧ ¬ s.memP.written 0 (4 * n)) ∧
    (exec .readHeader s = .fault .unwrittenRead ↔
      n ≤ s.caps.pCap.toNat ∧ 128 ≤ n ∧ ¬ s.memP.written 0 512) ∧
    (exec .readPayload s = .fault .unwrittenRead ↔
      n ≤ s.caps.pCap.toNat ∧ size ≤ n - 128 ∧ size ≤ s.caps.bCap.toNat ∧ ¬ s.memP.written 512 (4 * size)) ∧
    (exec .inject s = .fault .unwrittenRead ↔
      n ≤ s.caps.pCap.toNat ∧ len ≤ s.caps.bCap.toNat ∧ 128 + len ≤ n ∧ ¬ injectInputsWritten s) ∧
    (exec .extract s = .fault .unwrittenRead ↔
      n ≤ s.caps.pCap.toNat ∧ 128 ≤ n ∧
        (¬ s.memP.written 0 512 ∨
          ∃ v : Word, (∀ i, i < 4 → carried s.memP i = some (v.extractLsb' (8 * i) 8)) ∧
            128 + v.toNat ≤ n ∧ v.toNat ≤ s.caps.bCap.toNat ∧ ¬ s.memP.written 512 (4 * v.toNat)))

/-- Which registers each command leaves alone (10_state.md R39): every command CMD, BUSY, PIXEL_COUNT, NAME_LEN and the
capacities, and all but the named ones PAYLOAD_LEN, SYM_LEN, HDR_SIZE and HDR_NAME_LEN. -/
def Obligations.CommandsKeepOtherRegisters : Prop :=
  ∀ (i : Instr) (s t : State), exec i s = .next t →
    t.cmd = s.cmd ∧ t.busy = s.busy ∧ t.pixelCount = s.pixelCount ∧ t.nameLen = s.nameLen ∧ t.caps = s.caps ∧
    (i ≠ .readPayload → i ≠ .extract → t.payloadLen = s.payloadLen) ∧
    (i ≠ .symbolize → i ≠ .symbolizeH → i ≠ .extractSymbols → t.symLen = s.symLen) ∧
    (i ≠ .readHeader → i ≠ .extract → t.hdrSize = s.hdrSize ∧ t.hdrNameLen = s.hdrNameLen)

/-- Which memories each command leaves alone, element by element (20_memory.md R68; 42_channel_reader.md R140: no reader writes
P; 10_state.md R43: no command writes N). -/
def Obligations.CommandsKeepOtherMemories : Prop :=
  ∀ (i : Instr) (s t : State), exec i s = .next t →
    (∀ a, t.memN.read a = s.memN.read a) ∧
    (i ≠ .embed → i ≠ .inject → ∀ a, t.memP.read a = s.memP.read a) ∧
    (i ≠ .desymbolize → i ≠ .readPayload → i ≠ .extract → ∀ a, t.memB.read a = s.memB.read a) ∧
    (i ≠ .formatHeader → i ≠ .readHeader → i ≠ .inject → i ≠ .extract → ∀ a, t.memH.read a = s.memH.read a) ∧
    (i ≠ .symbolize → i ≠ .symbolizeH → i ≠ .extractSymbols → ∀ a, t.memS.read a = s.memS.read a)

/-- Bit locality: after EMBED, INJECT or any other command, whether or not it succeeded, every channel keeps its upper six bits
(41_channel_writer.md R123). -/
def Obligations.UpperSixBitsAreKept : Prop :=
  ∀ (i : Instr) (s t : State) (k : Nat), exec i s = .next t →
    (t.memP.read k).map (fun c => c.extractLsb' 2 6) = (s.memP.read k).map (fun c => c.extractLsb' 2 6)

/-- Issuing a failed command again from the state it left gives the same error and the same state (60_exceptions.md R206). -/
def Obligations.RetryGivesTheSameError : Prop :=
  ∀ (i : Instr) (s t : State), exec i s = .next t → t.err ≠ 0 → exec i t = .next t

/-- Running EMBED twice in a row gives the same state as running it once (41_channel_writer.md R122, corner case). -/
def Obligations.EmbedTwiceIsEmbedOnce : Prop :=
  ∀ s t : State, exec .embed s = .next t → exec .embed t = .next t

/-- INJECT and EXTRACT neither read nor write S and SYM_LEN: with any other S and SYM_LEN they answer the same
(10_state.md R45, 43_header_orchestration.md R165). -/
def Obligations.InjectAndExtractIgnoreSymbols : Prop :=
  ∀ (i : Instr) (s t : State) (x : Memory Symbol) (m : Word), i = .inject ∨ i = .extract → exec i s = .next t →
    exec i { s with memS := x, symLen := m } = .next { t with memS := x, symLen := m } ∧
    t.memS = s.memS ∧ t.symLen = s.symLen

/-- EXTRACT is a function of PIXEL_COUNT, the capacities and the channels of the valid pixels: two states that agree on them get
the same outcome and the same results (00_scope.md R19). -/
def Obligations.ExtractDependsOnlyOnItsPixels : Prop :=
  ∀ s s' t : State, s'.pixelCount = s.pixelCount → s'.caps = s.caps →
    (∀ k, k < 4 * s.pixelCount.toNat → s'.memP.read k = s.memP.read k) → exec .extract s = .next t →
    ∃ t', exec .extract s' = .next t' ∧ t'.err = t.err ∧
      (t.err = 0 → t'.hdrSize = t.hdrSize ∧ t'.hdrNameLen = t.hdrNameLen ∧ t'.payloadLen = t.payloadLen ∧
        (∀ j, j < 128 → t'.memH.read j = t.memH.read j) ∧
        (∀ j, j < t.payloadLen.toNat → t'.memB.read j = t.memB.read j))

/-! The codec as a whole -/

/-- The sum that packs four symbols never carries: it is the four fields side by side (30_encoding.md R79). -/
def Obligations.PackingNeverCarries : Prop :=
  ∀ x0 x1 x2 x3 : Symbol, pack x0 x1 x2 x3 = x3 ++ x2 ++ x1 ++ x0

/-- The header formatter and the parser: the parsed name length of a formatted header is the length of the name without its
trailing 0x00 bytes, and the name's bytes stand where the parser reads them (30_encoding.md R82, R83, R84). -/
def Obligations.FormattedNameIsRecovered : Prop :=
  ∀ (v : Word) (name : List Byte), name.length ≤ 124 →
    namelen (fmtHeader v name) = (name.reverse.dropWhile (fun b => b == 0)).length ∧
    ∀ j, j < name.length → (fmtHeader v name)[4 + j]? = name[j]?

/-- The inverse law (40_bitstream_codec.md R103): DESYMBOLIZE after a SYMBOLIZE that succeeded leaves B[0..L−1] as it was; after
SYMBOLIZE.H, with PAYLOAD_LEN = 128 + L ≤ B_CAP, B holds the header and then the old payload. -/
def Obligations.DesymbolizeInvertsSymbolize : Prop :=
  (∀ s t : State, exec .symbolize s = .next t → t.err = 0 →
    ∃ u, exec .desymbolize t = .next u ∧ u.err = 0 ∧
      ∀ j, j < s.payloadLen.toNat → u.memB.read j = s.memB.read j) ∧
  (∀ (s t : State) (len : Word), exec .symbolizeH s = .next t → t.err = 0 → len.toNat = 128 + s.payloadLen.toNat →
    len.toNat ≤ s.caps.bCap.toNat →
    ∃ u, exec .desymbolize { t with payloadLen := len } = .next u ∧ u.err = 0 ∧
      (∀ j, j < 128 → u.memB.read j = s.memH.read j) ∧
      (∀ j, j < s.payloadLen.toNat → u.memB.read (128 + j) = s.memB.read j))

/-- READ_HEADER and READ_PAYLOAD compute the bytes of the source's composition desymbolize(extractSymbols(pixels), count)
(42_channel_reader.md R146): EXTRACT_SYMBOLS and then DESYMBOLIZE with PAYLOAD_LEN = 128 + HDR_SIZE leave in B the header
READ_HEADER leaves in H and then the payload READ_PAYLOAD leaves in B. -/
def Obligations.ReadersEqualTheSymbolComposition : Prop :=
  ∀ (s t : State) (len : Word), exec .extractSymbols s = .next t → t.err = 0 →
    len.toNat = 128 + s.hdrSize.toNat → len.toNat ≤ s.pixelCount.toNat → len.toNat ≤ s.caps.bCap.toNat →
    ∃ u v w, exec .desymbolize { t with payloadLen := len } = .next u ∧ exec .readHeader s = .next v ∧
      exec .readPayload s = .next w ∧ u.err = 0 ∧ v.err = 0 ∧ w.err = 0 ∧
      (∀ j, j < 128 → u.memB.read j = v.memH.read j) ∧
      (∀ j, j < s.hdrSize.toNat → u.memB.read (128 + j) = w.memB.read j)

/-- The composite commands equal their primitive sequences (43_header_orchestration.md R168): FORMAT_HEADER; SYMBOLIZE.H; EMBED
leaves what INJECT leaves but for S and SYM_LEN, and READ_HEADER; READ_PAYLOAD leaves what EXTRACT leaves. -/
def Obligations.CompositesEqualPrimitiveSequences : Prop :=
  (∀ s v : State, exec .inject s = .next v → v.err = 0 → 4 * (128 + s.payloadLen.toNat) ≤ s.caps.sCap.toNat →
    ∃ a b c, exec .formatHeader s = .next a ∧ exec .symbolizeH a = .next b ∧ exec .embed b = .next c ∧
      a.err = 0 ∧ b.err = 0 ∧ c = { v with memS := c.memS, symLen := c.symLen }) ∧
  (∀ s v : State, exec .extract s = .next v → v.err = 0 →
    ∃ a, exec .readHeader s = .next a ∧ a.err = 0 ∧ exec .readPayload a = .next v)

/-- Round trip (43_header_orchestration.md R169): INJECT, then any host writes to B, then EXTRACT, run as host steps, recovers
the payload, the size, and the name without its trailing zeros (30_encoding.md R84). That the host's steps wait in a list is the
model's choice (log 1). -/
def Obligations.InjectThenExtractRecoversAll : Prop :=
  ∀ (s : State) (ws : List (Nat × Byte)) (rest : List HostStep), s.busy = false →
    s.host = .regWrite 0x00 4 0x00000008 :: (writesToB ws ++ .regWrite 0x00 4 0x00000009 :: rest) →
    (∀ c, c ∈ ws → c.1 < s.caps.bCap.toNat) →
    s.pixelCount.toNat ≤ s.caps.pCap.toNat → s.payloadLen.toNat ≤ s.caps.bCap.toNat →
    (s.payloadLen.toNat : Int) ≤ (s.pixelCount.toNat : Int) - 128 → injectInputsWritten s →
    ∃ u : State, Host.Core.run core (ws.length + 2) s = .next u ∧ u.host = rest ∧ u.err = 0 ∧
      u.payloadLen = s.payloadLen ∧ u.hdrSize = s.payloadLen ∧
      (∀ j, j < s.payloadLen.toNat → u.memB.read j = s.memB.read j) ∧
      (∀ j, j < min s.nameLen.toNat 124 → u.memH.read (4 + j) = s.memN.read j) ∧
      isNameLength u.memH u.hdrNameLen.toNat ∧ u.hdrNameLen.toNat ≤ s.nameLen.toNat ∧
      (s.nameLen.toNat ≤ 124 → (s.nameLen.toNat = 0 ∨ s.memN.read (s.nameLen.toNat - 1) ≠ some 0) →
        u.hdrNameLen = s.nameLen)

/-- Capacity boundary (43_header_orchestration.md R170): with every other check passing, a payload of PIXEL_COUNT − 128 bytes
succeeds, and one of a byte more fails with PAYLOAD_TOO_LARGE and changes nothing else. -/
def Obligations.CapacityBoundaryOfInject : Prop :=
  ∀ s : State, s.pixelCount.toNat ≤ s.caps.pCap.toNat → 128 ≤ s.pixelCount.toNat →
    s.payloadLen.toNat ≤ s.caps.bCap.toNat →
    (s.payloadLen.toNat = s.pixelCount.toNat - 128 → injectInputsWritten s →
      ∃ t, exec .inject s = .next t ∧ t.err = 0) ∧
    (s.payloadLen.toNat = s.pixelCount.toNat - 128 + 1 → exec .inject s = .next { s with err := 1 })

/-- INFO (43_header_orchestration.md R167, 30_encoding.md R77), run as host steps (log 1, log 2): it gives the host STATUS,
HDR_SIZE, HDR_NAME_LEN, the name bytes and the capacity, and writes nothing but H, HDR_SIZE, HDR_NAME_LEN, STATUS.ERR and CMD.
This holds when its READ_HEADER succeeds, and when it fails if the name that the stale HDR_NAME_LEN gives is written in H
(70_reset_and_hazards.md R248). -/
def Obligations.InfoReportsTheHeaderAndTheCapacity : Prop :=
  ∀ (s v : State) (rest : List HostStep), s.busy = false → exec .readHeader s = .next v →
    (v.err = 0 ∨ v.hdrNameLen.toNat ≤ 124 ∧ v.memH.written 4 v.hdrNameLen.toNat) →
    s.host = asmInfo v.hdrNameLen.toNat ++ rest →
    v = { s with memH := v.memH, hdrSize := v.hdrSize, hdrNameLen := v.hdrNameLen, err := v.err } ∧
    ∃ (u : State) (name : List Byte), Host.Core.run core (7 + v.hdrNameLen.toNat) s = .next u ∧
      name.length = v.hdrNameLen.toNat ∧ (∀ j, j < name.length → v.memH.read (4 + j) = name[j]?) ∧
      u = { v with
        cmd := 0x00000006, host := rest,
        replies := .word (capacityHi s) :: .word (capacityLo s) :: ((name.map Reply.element).reverse ++
          .word v.hdrNameLen :: .word v.hdrSize :: .word (v.err.setWidth 32) :: .word (v.err.setWidth 32) :: s.replies) }
end

