-- ==== Sys2Proof/Laws/Memory.lean ====
section
/-! SUPPORT. Laws of memories: what a read gives after a block write, that the canonical form is kept, and what `gather`
reads. -/

namespace Sys2Proof.Machine

variable {α β : Type}

@[simp] theorem Memory.read_nil (a : Nat) : Memory.read ([] : Memory α) a = none := rfl

theorem Memory.read_cons (k : Nat) (v : α) (m : Memory α) (a : Nat) :
    Memory.read ((k, v) :: m) a = if k = a then some v else m.read a := rfl

theorem Memory.read_append (m₁ m₂ : Memory α) (a : Nat) :
    Memory.read (m₁ ++ m₂) a = (m₁.read a).or (m₂.read a) := by
  induction m₁ with
  | nil => simp
  | cons c m ih =>
    obtain ⟨k, v⟩ := c
    by_cases h : k = a <;> simp [Memory.read_cons, h, ih]

theorem Memory.read_filter (p : Nat → Bool) (m : Memory α) (a : Nat) :
    Memory.read (m.filter (fun c => p c.1)) a = if p a then m.read a else none := by
  induction m with
  | nil => simp
  | cons c m ih =>
    obtain ⟨k, v⟩ := c
    by_cases hk : k = a
    · subst hk
      cases hp : p k <;> simp [hp, Memory.read_cons, ih]
    · cases hp : p k <;> simp [hp, Memory.read_cons, hk, ih]

theorem read_cells (a : Nat) (vs : List α) (k : Nat) :
    Memory.read (cells a vs) k = if a ≤ k then vs[k - a]? else none := by
  induction vs generalizing a with
  | nil => simp [cells]
  | cons v vs ih =>
    rw [cells, Memory.read_cons, ih]
    by_cases h : a = k
    · subst h; simp
    · by_cases h' : a + 1 ≤ k
      · have e : k - a = (k - (a + 1)) + 1 := by omega
        have h2 : a ≤ k := by omega
        simp [h, h', h2, e]
      · have h2 : ¬ a ≤ k := by omega
        simp [h, h', h2]

/-- One lemma says what a block write does to every read. -/
theorem Memory.read_writeBlock (m : Memory α) (a : Nat) (vs : List α) (k : Nat) :
    (m.writeBlock a vs).read k = if a ≤ k ∧ k < a + vs.length then vs[k - a]? else m.read k := by
  rw [Memory.writeBlock, Memory.read_append, Memory.read_append,
    Memory.read_filter (fun x => decide (x < a)), Memory.read_filter (fun x => decide (a + vs.length ≤ x)),
    read_cells]
  by_cases h1 : a ≤ k
  · have h1' : ¬ k < a := by omega
    by_cases h2 : k < a + vs.length
    · have h3 : k - a < vs.length := by omega
      simp [h1, h1', h2, List.getElem?_eq_getElem h3]
    · have h3 : vs.length ≤ k - a := by omega
      have h4 : a + vs.length ≤ k := by omega
      simp [h1, h1', h2, h4, List.getElem?_eq_none h3]
  · have h1' : k < a := by omega
    have h4 : ¬ a + vs.length ≤ k := by omega
    simp [h1, h1', h4]

theorem Memory.read_writeBlock_inside (m : Memory α) (a : Nat) (vs : List α) (k : Nat) (h : k < vs.length) :
    (m.writeBlock a vs).read (a + k) = some vs[k] := by
  rw [Memory.read_writeBlock, if_pos (by omega), Nat.add_sub_cancel_left, List.getElem?_eq_getElem h]

theorem Memory.read_writeBlock_outside (m : Memory α) (a : Nat) (vs : List α) (k : Nat)
    (h : k < a ∨ a + vs.length ≤ k) : (m.writeBlock a vs).read k = m.read k := by
  rw [Memory.read_writeBlock, if_neg (by omega)]

theorem Memory.read_writeBlock_zero (m : Memory α) (vs : List α) (k : Nat) :
    (m.writeBlock 0 vs).read k = if k < vs.length then vs[k]? else m.read k := by
  simp [Memory.read_writeBlock]

theorem Memory.read_write_same (m : Memory α) (a : Nat) (v : α) : (m.write a v).read a = some v := by
  simpa [Memory.write] using m.read_writeBlock_inside a [v] 0 (by simp)

theorem Memory.read_write_other (m : Memory α) (a k : Nat) (v : α) (h : k ≠ a) :
    (m.write a v).read k = m.read k :=
  m.read_writeBlock_outside a [v] k (by simp; omega)

theorem mem_cells {a : Nat} {vs : List α} {c : Nat × α} (h : c ∈ cells a vs) :
    a ≤ c.1 ∧ c.1 < a + vs.length := by
  induction vs generalizing a with
  | nil => simp [cells] at h
  | cons v vs ih =>
    rw [cells, List.mem_cons] at h
    rcases h with rfl | h
    · simp
    · have := ih h
      simp only [List.length_cons]
      omega

theorem wf_cells (a : Nat) (vs : List α) : Memory.wf (cells a vs) := by
  induction vs generalizing a with
  | nil => simp [cells, Memory.wf]
  | cons v vs ih =>
    refine List.Pairwise.cons (fun c hc => ?_) (ih (a + 1))
    have := mem_cells hc
    show a < c.1
    omega

/-- A block write keeps the canonical form. -/
theorem Memory.wf_writeBlock {m : Memory α} (h : m.wf) (a : Nat) (vs : List α) : (m.writeBlock a vs).wf := by
  refine List.pairwise_append.2 ⟨List.pairwise_append.2 ⟨h.filter _, wf_cells a vs, ?_⟩, h.filter _, ?_⟩
  · intro x hx y hy
    have := mem_cells hy
    have : x.1 < a := by simpa using (List.mem_filter.1 hx).2
    omega
  · intro x hx y hy
    have hy' : a + vs.length ≤ y.1 := by simpa using (List.mem_filter.1 hy).2
    rcases List.mem_append.1 hx with hx | hx
    · have : x.1 < a := by simpa using (List.mem_filter.1 hx).2
      omega
    · have := mem_cells hx
      omega

theorem Memory.wf_write {m : Memory α} (h : m.wf) (a : Nat) (v : α) : (m.write a v).wf := m.wf_writeBlock h a [v]

/-- A block write inside the space stays inside it. -/
theorem Memory.within_writeBlock {m : Memory α} {size : Nat} (h : m.within size) (a : Nat) (vs : List α)
    (hb : a + vs.length ≤ size) : (m.writeBlock a vs).within size := by
  intro c hc
  rcases List.mem_append.1 hc with hc | hc
  · rcases List.mem_append.1 hc with hc | hc
    · exact h c (List.mem_filter.1 hc).1
    · have := mem_cells hc
      omega
  · exact h c (List.mem_filter.1 hc).1

theorem Memory.within_write {m : Memory α} {size : Nat} (h : m.within size) (a : Nat) (v : α) (hb : a < size) :
    (m.write a v).within size :=
  m.within_writeBlock h a [v] (by simpa using hb)

/-! Gathering -/

/-- `gather` answers exactly the list of the `n` values. -/
theorem gather_eq_some (f : Nat → Option α) (a n : Nat) (l : List α) :
    gather f a n = some l ↔ l.length = n ∧ ∀ k, k < n → f (a + k) = l[k]? := by
  induction n generalizing a l with
  | zero =>
    constructor
    · intro h
      simp only [gather, Option.some.injEq] at h
      subst h
      simp
    · rintro ⟨h, -⟩
      simp [gather, List.eq_nil_of_length_eq_zero h]
  | succ n ih =>
    rw [gather]
    cases hf : f a with
    | none =>
      simp only [reduceCtorEq, false_iff, not_and]
      intro hl h
      have := h 0 (by omega)
      rw [Nat.add_zero, hf, List.getElem?_eq_getElem (by omega)] at this
      simp at this
    | some x =>
      cases l with
      | nil => cases hg : gather f (a + 1) n <;> simp
      | cons y ys =>
        have key : gather f (a + 1) n = some ys ∧ x = y ↔
            (y :: ys).length = n + 1 ∧ ∀ k, k < n + 1 → f (a + k) = (y :: ys)[k]? := by
          rw [ih]
          constructor
          · rintro ⟨⟨h1, h2⟩, rfl⟩
            refine ⟨by simp [h1], fun k hk => ?_⟩
            cases k with
            | zero => simpa using hf
            | succ k =>
              have := h2 k (by omega)
              rw [show a + (k + 1) = a + 1 + k by omega, this]
              simp
          · rintro ⟨h1, h2⟩
            refine ⟨⟨by simpa using h1, fun k hk => ?_⟩, ?_⟩
            · have := h2 (k + 1) (by omega)
              rw [show a + 1 + k = a + (k + 1) by omega, this]
              simp
            · have := h2 0 (by omega)
              rw [Nat.add_zero, hf] at this
              simpa using this
        rw [← key]
        cases hg : gather f (a + 1) n with
        | none => simp
        | some zs => simp [and_comm]

theorem gather_length {f : Nat → Option α} {a n : Nat} {l : List α} (h : gather f a n = some l) : l.length = n :=
  ((gather_eq_some f a n l).1 h).1

theorem gather_get {f : Nat → Option α} {a n : Nat} {l : List α} (h : gather f a n = some l) {k : Nat} (hk : k < n) :
    f (a + k) = l[k]? :=
  ((gather_eq_some f a n l).1 h).2 k hk

/-- `gather` answers exactly when every value exists. -/
theorem gather_isSome (f : Nat → Option α) (a n : Nat) :
    (gather f a n).isSome = true ↔ ∀ k, k < n → (f (a + k)).isSome = true := by
  induction n generalizing a with
  | zero => simp [gather]
  | succ n ih =>
    have h : (gather f a (n + 1)).isSome = true ↔ (f a).isSome = true ∧ (gather f (a + 1) n).isSome = true := by
      rw [gather]
      cases f a <;> cases gather f (a + 1) n <;> simp
    rw [h, ih]
    constructor
    · rintro ⟨h0, h1⟩ k hk
      cases k with
      | zero => simpa using h0
      | succ k =>
        have := h1 k (by omega)
        rwa [show a + 1 + k = a + (k + 1) by omega] at this
    · intro h
      refine ⟨by simpa using h 0 (by omega), fun k hk => ?_⟩
      have := h (k + 1) (by omega)
      rwa [show a + (k + 1) = a + 1 + k by omega] at this

theorem gather_congr {f g : Nat → Option α} (a n : Nat) (h : ∀ k, k < n → f (a + k) = g (a + k)) :
    gather f a n = gather g a n := by
  induction n generalizing a with
  | zero => rfl
  | succ n ih =>
    have h0 : f a = g a := by simpa using h 0 (by omega)
    have h1 : gather f (a + 1) n = gather g (a + 1) n := by
      refine ih (a + 1) fun k hk => ?_
      have := h (k + 1) (by omega)
      rwa [show a + (k + 1) = a + 1 + k by omega] at this
    rw [gather, gather, h0, h1]

end Sys2Proof.Machine
end

