-- ==== Sys2Proof/Laws/Encodings.lean ====
section
/-! SUPPORT. Laws of the data encodings: symbols and bytes, channels and pixels, headers. -/

namespace Sys2Proof.Machine

/-! Symbols, bytes and channels -/

theorem pack_sym (d : Byte) : pack (sym d 0) (sym d 1) (sym d 2) (sym d 3) = d := by
  revert d; decide +kernel

theorem demuxCh_muxCh (c : Byte) (x : Symbol) : demuxCh (muxCh c x) = x := by
  revert c x; decide +kernel

theorem muxCh_keeps_upper (c : Byte) (x : Symbol) : (muxCh c x).extractLsb' 2 6 = c.extractLsb' 2 6 := by
  revert c x; decide +kernel

theorem muxCh_muxCh (c : Byte) (x : Symbol) : muxCh (muxCh c x) x = muxCh c x := by
  revert c x; decide +kernel

@[simp] theorem pixbyte_mux (p : Pixel) (b : Byte) : pixbyte (mux p b) = b := by
  simp [pixbyte, mux, demuxCh_muxCh, pack_sym]

/-- A symbol's 8-bit container: the symbol below six zero bits (20_memory.md R52). -/
theorem setWidth_symbol (x : Symbol) : x.setWidth 8 = 0#6 ++ x := by
  revert x; decide

@[simp] theorem length_symbolsOf (b : Byte) : (symbolsOf b).length = 4 := rfl

theorem symbolsOf_get (b : Byte) (q : Nat) (hq : q < 4) : (symbolsOf b)[q]? = some (sym b q) := by
  rcases q with _ | _ | _ | _ | q <;> first | rfl | omega

@[simp] theorem length_serialize (d : List Byte) : (serialize d).length = 4 * d.length := by
  induction d with
  | nil => rfl
  | cons b d ih =>
    have : serialize (b :: d) = symbolsOf b ++ serialize d := rfl
    rw [this, List.length_append, ih]
    simp
    omega

/-- The serialized stream: symbol 4j + q is symbol q of byte j (30_encoding.md R78). -/
theorem serialize_get (d : List Byte) (j q : Nat) (hq : q < 4) :
    (serialize d)[4 * j + q]? = d[j]?.map (fun b => sym b q) := by
  induction d generalizing j with
  | nil => simp [serialize]
  | cons b d ih =>
    have e : serialize (b :: d) = symbolsOf b ++ serialize d := rfl
    rw [e]
    cases j with
    | zero =>
      rw [List.getElem?_append_left (by simpa using by omega)]
      simpa using symbolsOf_get b q hq
    | succ j =>
      rw [List.getElem?_append_right (by simp; omega)]
      have : 4 * (j + 1) + q - (symbolsOf b).length = 4 * j + q := by simp; omega
      rw [this, ih]
      simp

/-! Pixels -/

theorem Memory.pixel_eq_some (m : Memory Byte) (i : Nat) (p : Pixel) :
    m.pixel i = some p ↔ m.read (4 * i) = some p.r ∧ m.read (4 * i + 1) = some p.g ∧
      m.read (4 * i + 2) = some p.b ∧ m.read (4 * i + 3) = some p.a := by
  obtain ⟨r, g, b, a⟩ := p
  rw [Memory.pixel]
  cases m.read (4 * i) <;> cases m.read (4 * i + 1) <;> cases m.read (4 * i + 2) <;>
    cases m.read (4 * i + 3) <;> simp

theorem Memory.pixel_isSome (m : Memory Byte) (i : Nat) :
    (m.pixel i).isSome = true ↔ ∀ q, q < 4 → (m.read (4 * i + q)).isSome = true := by
  constructor
  · intro h q hq
    obtain ⟨p, hp⟩ := Option.isSome_iff_exists.1 h
    obtain ⟨h0, h1, h2, h3⟩ := (m.pixel_eq_some i p).1 hp
    rcases q with _ | _ | _ | _ | q
    · simp [h0]
    · simp [h1]
    · simp [h2]
    · simp [h3]
    · omega
  · intro h
    obtain ⟨a0, h0⟩ := Option.isSome_iff_exists.1 (h 0 (by omega))
    obtain ⟨a1, h1⟩ := Option.isSome_iff_exists.1 (h 1 (by omega))
    obtain ⟨a2, h2⟩ := Option.isSome_iff_exists.1 (h 2 (by omega))
    obtain ⟨a3, h3⟩ := Option.isSome_iff_exists.1 (h 3 (by omega))
    rw [(m.pixel_eq_some i ⟨a0, a1, a2, a3⟩).2 ⟨h0, h1, h2, h3⟩]
    rfl

theorem Memory.pixel_congr {m m' : Memory Byte} (i : Nat)
    (h : ∀ q, q < 4 → m.read (4 * i + q) = m'.read (4 * i + q)) : m.pixel i = m'.pixel i := by
  rw [Memory.pixel, Memory.pixel, h 1 (by omega), h 2 (by omega), h 3 (by omega)]
  have := h 0 (by omega)
  rw [Nat.add_zero] at this
  rw [this]

@[simp] theorem pixbyteAt_isSome (m : Memory Byte) (i : Nat) :
    (pixbyteAt m i).isSome = (m.pixel i).isSome := by
  simp [pixbyteAt]

theorem pixbyteAt_eq_some (m : Memory Byte) (i : Nat) (b : Byte) :
    pixbyteAt m i = some b ↔ ∃ p, m.pixel i = some p ∧ pixbyte p = b := by
  simp [pixbyteAt]

/-- The bytes of `n` pixels from pixel `a` on can be read exactly when their channels are written. -/
theorem gather_pixbyte_isSome (m : Memory Byte) (a n : Nat) :
    (gather (pixbyteAt m) a n).isSome = true ↔ ∀ k, k < 4 * n → (m.read (4 * a + k)).isSome = true := by
  rw [gather_isSome]
  simp only [pixbyteAt_isSome, Memory.pixel_isSome]
  constructor
  · intro h k hk
    have := h (k / 4) (by omega) (k % 4) (by omega)
    rwa [show 4 * (a + k / 4) + k % 4 = 4 * a + k by omega] at this
  · intro h k hk q hq
    have := h (4 * k + q) (by omega)
    rwa [show 4 * a + (4 * k + q) = 4 * (a + k) + q by omega] at this

theorem packAt_isSome (m : Memory Symbol) (j : Nat) :
    (packAt m j).isSome = true ↔ ∀ q, q < 4 → (m.read (4 * j + q)).isSome = true := by
  rw [packAt]
  constructor
  · intro h q hq
    cases h0 : m.read (4 * j) <;> cases h1 : m.read (4 * j + 1) <;> cases h2 : m.read (4 * j + 2) <;>
      cases h3 : m.read (4 * j + 3) <;> simp [h0, h1, h2, h3] at h
    rcases q with _ | _ | _ | _ | q
    · simp [h0]
    · simp [h1]
    · simp [h2]
    · simp [h3]
    · omega
  · intro h
    obtain ⟨a0, h0⟩ := Option.isSome_iff_exists.1 (h 0 (by omega))
    obtain ⟨a1, h1⟩ := Option.isSome_iff_exists.1 (h 1 (by omega))
    obtain ⟨a2, h2⟩ := Option.isSome_iff_exists.1 (h 2 (by omega))
    obtain ⟨a3, h3⟩ := Option.isSome_iff_exists.1 (h 3 (by omega))
    rw [Nat.add_zero] at h0
    simp [h0, h1, h2, h3]

theorem packAt_eq (m : Memory Symbol) (j : Nat) (f : Nat → Symbol)
    (h : ∀ q, q < 4 → m.read (4 * j + q) = some (f q)) : packAt m j = some (pack (f 0) (f 1) (f 2) (f 3)) := by
  have h0 := h 0 (by omega)
  rw [Nat.add_zero] at h0
  rw [packAt, h0, h 1 (by omega), h 2 (by omega), h 3 (by omega)]

theorem muxAt_isSome (p : Memory Byte) (x : Memory Symbol) (k : Nat) :
    (muxAt p x k).isSome = true ↔ (p.read k).isSome = true ∧ (x.read k).isSome = true := by
  rw [muxAt]
  cases p.read k <;> cases x.read k <;> simp

theorem muxAt_eq {p : Memory Byte} {x : Memory Symbol} {k : Nat} {c : Byte} {y : Symbol}
    (hc : p.read k = some c) (hy : x.read k = some y) : muxAt p x k = some (muxCh c y) := by
  rw [muxAt, hc, hy]

theorem mux_channels_get (p : Pixel) (b : Byte) (m : Memory Byte) (i : Nat) (hp : m.pixel i = some p)
    (q : Nat) (hq : q < 4) :
    (mux p b).channels[q]? = (m.read (4 * i + q)).map (fun c => muxCh c (sym b q)) := by
  obtain ⟨h0, h1, h2, h3⟩ := (m.pixel_eq_some i p).1 hp
  rcases q with _ | _ | _ | _ | q
  · simp [h0, mux, Pixel.channels]
  · simp [h1, mux, Pixel.channels]
  · simp [h2, mux, Pixel.channels]
  · simp [h3, mux, Pixel.channels]
  · omega

@[simp] theorem length_channels (p : Pixel) : p.channels.length = 4 := rfl

theorem length_muxPixels {p : Memory Byte} {i : Nat} {d cs : List Byte} (h : muxPixels p i d = some cs) :
    cs.length = 4 * d.length := by
  induction d generalizing i cs with
  | nil =>
    simp only [muxPixels, Option.some.injEq] at h
    subst h
    rfl
  | cons b d ih =>
    rw [muxPixels] at h
    cases hp : p.pixel i with
    | none => simp [hp] at h
    | some px =>
      cases hm : muxPixels p (i + 1) d with
      | none => simp [hp, hm] at h
      | some rest =>
        simp only [hp, hm, Option.some.injEq] at h
        subst h
        simp [ih hm]
        omega

/-- Channel 4j + q of the written pixels is the old channel with symbol q of byte j in its low bits. -/
theorem muxPixels_get {p : Memory Byte} {i : Nat} {d cs : List Byte} (h : muxPixels p i d = some cs)
    (j : Nat) (b : Byte) (hj : d[j]? = some b) (q : Nat) (hq : q < 4) :
    cs[4 * j + q]? = (p.read (4 * (i + j) + q)).map (fun c => muxCh c (sym b q)) := by
  induction d generalizing i cs j with
  | nil => simp at hj
  | cons b' d ih =>
    rw [muxPixels] at h
    cases hp : p.pixel i with
    | none => simp [hp] at h
    | some px =>
      cases hm : muxPixels p (i + 1) d with
      | none => simp [hp, hm] at h
      | some rest =>
        simp only [hp, hm, Option.some.injEq] at h
        subst h
        cases j with
        | zero =>
          have hb : b' = b := by simpa using hj
          subst hb
          rw [List.getElem?_append_left (by simp; omega)]
          simpa using mux_channels_get px b' p i hp q hq
        | succ j =>
          rw [List.getElem?_append_right (by simp; omega)]
          have e : 4 * (j + 1) + q - (mux px b').channels.length = 4 * j + q := by simp; omega
          rw [e, ih hm j (by simpa using hj)]
          rw [show i + 1 + j = i + (j + 1) by omega]

theorem muxPixels_isSome (p : Memory Byte) (i : Nat) (d : List Byte) :
    (muxPixels p i d).isSome = true ↔ ∀ k, k < 4 * d.length → (p.read (4 * i + k)).isSome = true := by
  induction d generalizing i with
  | nil => simp [muxPixels]
  | cons b d ih =>
    have h : (muxPixels p i (b :: d)).isSome = true ↔
        (p.pixel i).isSome = true ∧ (muxPixels p (i + 1) d).isSome = true := by
      rw [muxPixels]
      cases p.pixel i <;> cases muxPixels p (i + 1) d <;> simp
    rw [h, ih, Memory.pixel_isSome]
    constructor
    · rintro ⟨h0, h1⟩ k hk
      by_cases h4 : k < 4
      · exact h0 k h4
      · have := h1 (k - 4) (by simp at hk; omega)
        rwa [show 4 * (i + 1) + (k - 4) = 4 * i + k by omega] at this
    · intro h
      refine ⟨fun q hq => h q (by simp; omega), fun k hk => ?_⟩
      have := h (k + 4) (by simp; omega)
      rwa [show 4 * i + (k + 4) = 4 * (i + 1) + k by omega] at this

/-! Headers -/

@[simp] theorem length_le32 (v : Word) : (le32 v).length = 4 := rfl

theorem unle32_le32 (v : Word) :
    unle32 (v.extractLsb' 0 8) (v.extractLsb' 8 8) (v.extractLsb' 16 8) (v.extractLsb' 24 8) = v := by
  ext i hi
  simp only [unle32, BitVec.getElem_or, BitVec.getElem_setWidth, BitVec.getElem_shiftLeft,
    BitVec.getLsbD_extractLsb']
  rw [← BitVec.getLsbD_eq_getElem]
  rcases Nat.lt_or_ge i 8 with h | h
  · simp [h, show i < 16 by omega, show i < 24 by omega]
  rcases Nat.lt_or_ge i 16 with h' | h'
  · simp [h', show ¬ i < 8 by omega, show i < 24 by omega, show i - 8 < 8 by omega, show 8 + (i - 8) = i by omega]
  rcases Nat.lt_or_ge i 24 with h'' | h''
  · simp [h'', show ¬ i < 8 by omega, show ¬ i < 16 by omega, show ¬ i - 8 < 8 by omega, show i - 16 < 8 by omega,
      show 16 + (i - 16) = i by omega]
  · simp [show ¬ i < 8 by omega, show ¬ i < 16 by omega, show ¬ i < 24 by omega, show ¬ i - 8 < 8 by omega,
      show ¬ i - 16 < 8 by omega, show i - 24 < 8 by omega, show 24 + (i - 24) = i by omega]

theorem length_fmtHeader (v : Word) (name : List Byte) (h : name.length ≤ 124) :
    (fmtHeader v name).length = 128 := by
  simp [fmtHeader]
  omega

/-- The size field of a formatted header is the size (30_encoding.md R82, R83). -/
theorem hdrSizeOf_fmtHeader (v : Word) (name : List Byte) : hdrSizeOf (fmtHeader v name) = v := by
  have h : fmtHeader v name = v.extractLsb' 0 8 :: v.extractLsb' 8 8 :: v.extractLsb' 16 8 :: v.extractLsb' 24 8 ::
      (name ++ List.replicate (124 - name.length) 0#8) := rfl
  rw [h, hdrSizeOf]
  simpa using unle32_le32 v

theorem fmtHeader_name (v : Word) (name : List Byte) (j : Nat) (hj : j < name.length) :
    (fmtHeader v name)[4 + j]? = name[j]? := by
  rw [fmtHeader, List.append_assoc, List.getElem?_append_right (by simp), length_le32, Nat.add_sub_cancel_left,
    List.getElem?_append_left hj]

theorem fmtHeader_padding (v : Word) (name : List Byte) (j : Nat) (hj : name.length ≤ j) (h : j < 124) :
    (fmtHeader v name)[4 + j]? = some 0#8 := by
  rw [fmtHeader, List.append_assoc, List.getElem?_append_right (by simp), length_le32, Nat.add_sub_cancel_left,
    List.getElem?_append_right hj, List.getElem?_replicate, if_pos (by omega)]

theorem nameLenUpTo_le (hdr : List Byte) (k : Nat) : nameLenUpTo hdr k ≤ k := by
  induction k with
  | zero => simp [nameLenUpTo]
  | succ k ih =>
    rw [nameLenUpTo]
    split <;> omega

theorem namelen_le (hdr : List Byte) : namelen hdr ≤ 124 := nameLenUpTo_le hdr 124

/-- Every byte from the stripped length on is 0x00. -/
theorem nameLenUpTo_zero (hdr : List Byte) (k j : Nat) (h : nameLenUpTo hdr k ≤ j) (hj : j < k) :
    hdr.getD (4 + j) 0 = 0#8 := by
  induction k with
  | zero => omega
  | succ k ih =>
    rw [nameLenUpTo] at h
    split at h
    · omega
    · next hz =>
      rcases Nat.lt_or_ge j k with h' | h'
      · exact ih h h'
      · have : j = k := by omega
        subst this
        simpa using hz

/-- The last byte before the stripped length is not 0x00. -/
theorem nameLenUpTo_last (hdr : List Byte) (k : Nat) (h : nameLenUpTo hdr k ≠ 0) :
    hdr.getD (4 + (nameLenUpTo hdr k - 1)) 0 ≠ 0#8 := by
  induction k with
  | zero => simp [nameLenUpTo] at h
  | succ k ih =>
    rw [nameLenUpTo] at h ⊢
    split
    · next hz => simpa using hz
    · next hz =>
      rw [if_neg hz] at h
      exact ih h

/-- The stripped length is the one number with zeros from it on and a nonzero byte before it. -/
theorem namelen_unique (hdr : List Byte) (k : Nat) (hk : k ≤ 124)
    (hz : ∀ j, k ≤ j → j < 124 → hdr.getD (4 + j) 0 = 0#8)
    (hn : k ≠ 0 → hdr.getD (4 + (k - 1)) 0 ≠ 0#8) : namelen hdr = k := by
  have hle := namelen_le hdr
  rcases Nat.lt_trichotomy (namelen hdr) k with h | h | h
  · exact absurd (nameLenUpTo_zero hdr 124 (k - 1) (by rw [← namelen]; omega) (by omega)) (hn (by omega))
  · exact h
  · exact absurd (hz (namelen hdr - 1) (by omega) (by omega)) (nameLenUpTo_last hdr 124 (by rw [← namelen]; omega))

end Sys2Proof.Machine
end

