-- ==== Sys2Proof/Laws/Ops.lean ====
section
/-! SUPPORT. Laws of the ways a command ends: with an error, with its staged writes, or at an unwritten element. -/

namespace Sys2Proof.Machine

theorem raise_eq (e : ErrCode) (s : State) : raise e s = .next { s with err := errCode e } := rfl

theorem commit_eq (s : State) : commit s = .next { s with err := 0 } := rfl

@[simp] theorem raise_next (e : ErrCode) (s t : State) :
    raise e s = .next t ↔ t = { s with err := errCode e } := by
  rw [raise_eq, Host.Outcome.next.injEq, eq_comm]

@[simp] theorem commit_next (s t : State) : commit s = .next t ↔ t = { s with err := 0 } := by
  rw [commit_eq, Host.Outcome.next.injEq, eq_comm]

@[simp] theorem raise_fault (e : ErrCode) (s : State) (f : Fault) : raise e s ≠ .fault f := nofun

@[simp] theorem commit_fault (s : State) (f : Fault) : commit s ≠ .fault f := nofun

@[simp] theorem raise_refused (e : ErrCode) (s : State) (r : Refusal) : raise e s ≠ .refused r := nofun

@[simp] theorem commit_refused (s : State) (r : Refusal) : commit s ≠ .refused r := nofun

/-- A check of a command: either the condition holds and the error is the answer, or the command goes on. -/
theorem check_next (c : Prop) [Decidable c] (e : ErrCode) (s t : State) (go : Result) :
    (if c then raise e s else go) = .next t ↔ (c ∧ t = { s with err := errCode e }) ∨ (¬ c ∧ go = .next t) := by
  by_cases h : c <;> simp [h]

/-- A check never faults. -/
theorem check_fault (c : Prop) [Decidable c] (e : ErrCode) (s : State) (go : Result) (f : Fault) :
    (if c then raise e s else go) = .fault f ↔ ¬ c ∧ go = .fault f := by
  by_cases h : c <;> simp [h]

/-- A check never refuses. -/
theorem check_refused (c : Prop) [Decidable c] (e : ErrCode) (s : State) (go : Result) (r : Refusal) :
    (if c then raise e s else go) = .refused r ↔ ¬ c ∧ go = .refused r := by
  by_cases h : c <;> simp [h]

variable {α : Type}

@[simp] theorem reading_some (x : α) (go : α → Result) : reading (some x) go = go x := rfl

@[simp] theorem reading_none (go : α → Result) : reading none go = .fault .unwrittenRead := rfl

@[simp] theorem reading_next (o : Option α) (go : α → Result) (t : State) :
    reading o go = .next t ↔ ∃ x, o = some x ∧ go x = .next t := by
  cases o <;> simp

theorem reading_fault (o : Option α) (go : α → Result) :
    reading o go = .fault .unwrittenRead ↔ o = none ∨ ∃ x, o = some x ∧ go x = .fault .unwrittenRead := by
  cases o <;> simp

theorem reading_refused (o : Option α) (go : α → Result) (r : Refusal) :
    reading o go = .refused r ↔ ∃ x, o = some x ∧ go x = .refused r := by
  cases o <;> simp

/-- How a command that raises an error leaves the state: STATUS.ERR holds a code that a command can raise, and nothing else
has changed (60_exceptions.md R203). -/
def Raised (s t : State) : Prop :=
  ∃ e : ErrCode, (e = .payloadTooLarge ∨ e = .invalidHeader ∨ e = .truncatedStream ∨ e = .bufferOverflow ∨
    e = .symbolOverrun) ∧ t = { s with err := errCode e }

theorem Raised.err_ne_zero {s t : State} (h : Raised s t) : t.err ≠ 0 := by
  obtain ⟨e, he, rfl⟩ := h
  show errCode e ≠ 0
  rcases he with rfl | rfl | rfl | rfl | rfl <;> decide

theorem Raised.eq {s t : State} (h : Raised s t) : t = { s with err := t.err } := by
  obtain ⟨e, -, rfl⟩ := h
  rfl

end Sys2Proof.Machine
end

