-- ==== Sys2Proof/Laws/Commands.lean ====
section
/-! SUPPORT. Everything a command can do: for each meaning one lemma that says exactly when it answers which next state, an
error or success with the named writes. Provers cite these instead of unfolding a meaning. -/

namespace Sys2Proof.Machine

variable {s t : State}

/-! BitStreamCodec -/

/-- How many bytes stand ahead of the payload in the stream. -/
def prefixLength (hp : Bool) : Nat := if hp then 128 else 0

theorem length_prefixBytes {hp : Bool} {h : List Byte} (hh : prefixBytes hp s = some h) :
    h.length = prefixLength hp := by
  cases hp
  · have : h = [] := by simpa [prefixBytes] using hh.symm
    simp [this, prefixLength]
  · exact gather_length (f := s.memH.read) (a := 0) hh

theorem length_payloadBytes {b : List Byte} (hb : payloadBytes s = some b) : b.length = s.payloadLen.toNat :=
  gather_length hb

/-- What SYMBOLIZE (hp = false) and SYMBOLIZE.H (hp = true) leave when they succeed. -/
abbrev Symbolized (hp : Bool) (s t : State) : Prop :=
  s.payloadLen.toNat ≤ s.caps.bCap.toNat ∧
  4 * (prefixLength hp + s.payloadLen.toNat) ≤ s.caps.sCap.toNat ∧
  ∃ h, prefixBytes hp s = some h ∧ ∃ b, payloadBytes s = some b ∧
    t = { s with
      memS := s.memS.writeBlock 0 (serialize (h ++ b))
      symLen := BitVec.ofNat 32 (4 * (prefixLength hp + s.payloadLen.toNat))
      err := 0 }

theorem symbolizeWith_next (hp : Bool) : symbolizeWith hp s = .next t ↔
    (s.caps.bCap.toNat < s.payloadLen.toNat ∧ t = { s with err := 6 }) ∨
    (s.payloadLen.toNat ≤ s.caps.bCap.toNat ∧ s.caps.sCap.toNat < 4 * (prefixLength hp + s.payloadLen.toNat) ∧
      t = { s with err := 6 }) ∨
    Symbolized hp s t := by
  have e : (if hp = true then 128 else 0) = prefixLength hp := rfl
  simp only [symbolizeWith, e, check_next, reading_next, commit_next, not_lt, and_or_left, errCode]

/-- What DESYMBOLIZE leaves when it succeeds. -/
abbrev Desymbolized (s t : State) : Prop :=
  s.symLen.toNat ≤ s.caps.sCap.toNat ∧
  4 * s.payloadLen.toNat ≤ s.symLen.toNat ∧
  s.payloadLen.toNat ≤ s.caps.bCap.toNat ∧
  ∃ d, gather (packAt s.memS) 0 s.payloadLen.toNat = some d ∧
    t = { s with memB := s.memB.writeBlock 0 d, err := 0 }

theorem execDesymbolize_next : execDesymbolize s = .next t ↔
    (s.caps.sCap.toNat < s.symLen.toNat ∧ t = { s with err := 6 }) ∨
    (s.symLen.toNat ≤ s.caps.sCap.toNat ∧ s.symLen.toNat < 4 * s.payloadLen.toNat ∧ t = { s with err := 3 }) ∨
    (s.symLen.toNat ≤ s.caps.sCap.toNat ∧ 4 * s.payloadLen.toNat ≤ s.symLen.toNat ∧
      s.caps.bCap.toNat < s.payloadLen.toNat ∧ t = { s with err := 6 }) ∨
    Desymbolized s t := by
  simp only [execDesymbolize, check_next, reading_next, commit_next, not_lt, and_or_left, errCode]

/-! PixelChannelWriter -/

/-- What EMBED leaves when it succeeds. -/
abbrev Embedded (s t : State) : Prop :=
  s.pixelCount.toNat ≤ s.caps.pCap.toNat ∧
  s.symLen.toNat ≤ s.caps.sCap.toNat ∧
  s.symLen.toNat ≤ 4 * s.pixelCount.toNat ∧
  ∃ cs, gather (muxAt s.memP s.memS) 0 s.symLen.toNat = some cs ∧
    t = { s with memP := s.memP.writeBlock 0 cs, err := 0 }

theorem execEmbed_next : execEmbed s = .next t ↔
    (s.caps.pCap.toNat < s.pixelCount.toNat ∧ t = { s with err := 6 }) ∨
    (s.pixelCount.toNat ≤ s.caps.pCap.toNat ∧ s.caps.sCap.toNat < s.symLen.toNat ∧ t = { s with err := 6 }) ∨
    (s.pixelCount.toNat ≤ s.caps.pCap.toNat ∧ s.symLen.toNat ≤ s.caps.sCap.toNat ∧
      4 * s.pixelCount.toNat < s.symLen.toNat ∧ t = { s with err := 7 }) ∨
    Embedded s t := by
  simp only [execEmbed, check_next, reading_next, commit_next, not_lt, and_or_left, errCode]

/-! PixelChannelReader -/

/-- What EXTRACT_SYMBOLS leaves when it succeeds. -/
abbrev SymbolsExtracted (s t : State) : Prop :=
  s.pixelCount.toNat ≤ s.caps.pCap.toNat ∧
  4 * s.pixelCount.toNat ≤ s.caps.sCap.toNat ∧
  ∃ cs, s.memP.readBlock 0 (4 * s.pixelCount.toNat) = some cs ∧
    t = { s with
      memS := s.memS.writeBlock 0 (cs.map demuxCh)
      symLen := BitVec.ofNat 32 (4 * s.pixelCount.toNat)
      err := 0 }

theorem execExtractSymbols_next : execExtractSymbols s = .next t ↔
    (s.caps.pCap.toNat < s.pixelCount.toNat ∧ t = { s with err := 6 }) ∨
    (s.pixelCount.toNat ≤ s.caps.pCap.toNat ∧ s.caps.sCap.toNat < 4 * s.pixelCount.toNat ∧
      t = { s with err := 6 }) ∨
    SymbolsExtracted s t := by
  simp only [execExtractSymbols, check_next, reading_next, commit_next, not_lt, and_or_left, errCode]

/-- What READ_HEADER leaves when it succeeds. -/
abbrev HeaderRead (s t : State) : Prop :=
  s.pixelCount.toNat ≤ s.caps.pCap.toNat ∧
  128 ≤ s.pixelCount.toNat ∧
  ∃ hdr, gather (pixbyteAt s.memP) 0 128 = some hdr ∧
    t = { s with
      memH := s.memH.writeBlock 0 hdr
      hdrSize := hdrSizeOf hdr
      hdrNameLen := BitVec.ofNat 32 (namelen hdr)
      err := 0 }

theorem execReadHeader_next : execReadHeader s = .next t ↔
    (s.caps.pCap.toNat < s.pixelCount.toNat ∧ t = { s with err := 6 }) ∨
    (s.pixelCount.toNat ≤ s.caps.pCap.toNat ∧ s.pixelCount.toNat < 128 ∧ t = { s with err := 2 }) ∨
    HeaderRead s t := by
  simp only [execReadHeader, check_next, reading_next, commit_next, not_lt, and_or_left, errCode]

/-- What READ_PAYLOAD leaves when it succeeds. -/
abbrev PayloadRead (s t : State) : Prop :=
  s.pixelCount.toNat ≤ s.caps.pCap.toNat ∧
  s.hdrSize.toNat ≤ s.pixelCount.toNat - 128 ∧
  s.hdrSize.toNat ≤ s.caps.bCap.toNat ∧
  ∃ d, gather (pixbyteAt s.memP) 128 s.hdrSize.toNat = some d ∧
    t = { s with memB := s.memB.writeBlock 0 d, payloadLen := s.hdrSize, err := 0 }

theorem execReadPayload_next : execReadPayload s = .next t ↔
    (s.caps.pCap.toNat < s.pixelCount.toNat ∧ t = { s with err := 6 }) ∨
    (s.pixelCount.toNat ≤ s.caps.pCap.toNat ∧ s.pixelCount.toNat - 128 < s.hdrSize.toNat ∧
      t = { s with err := 3 }) ∨
    (s.pixelCount.toNat ≤ s.caps.pCap.toNat ∧ s.hdrSize.toNat ≤ s.pixelCount.toNat - 128 ∧
      s.caps.bCap.toNat < s.hdrSize.toNat ∧ t = { s with err := 6 }) ∨
    PayloadRead s t := by
  simp only [execReadPayload, check_next, reading_next, commit_next, not_lt, and_or_left, errCode]

/-! Header formatter and orchestration -/

theorem execNop_next : execNop s = .next t ↔ t = { s with err := 0 } := commit_next s t

theorem length_nameBytes {n : List Byte} (h : nameBytes s = some n) : n.length = min s.nameLen.toNat 124 :=
  gather_length h

theorem length_formattedHeader {hdr : List Byte} (h : formattedHeader s = some hdr) : hdr.length = 128 := by
  obtain ⟨n, hn, rfl⟩ := Option.map_eq_some_iff.1 h
  exact length_fmtHeader _ _ (by rw [length_nameBytes hn]; omega)

theorem execFormatHeader_next : execFormatHeader s = .next t ↔
    ∃ hdr, formattedHeader s = some hdr ∧ t = { s with memH := s.memH.writeBlock 0 hdr, err := 0 } := by
  simp only [execFormatHeader, reading_next, commit_next]

/-- INJECT's capacity check, without the signed subtraction. -/
theorem capacity_lt (s : State) (n : Nat) : capacity s < (n : Int) ↔ s.pixelCount.toNat < 128 + n := by
  unfold capacity
  omega

/-- What INJECT leaves when it succeeds. -/
abbrev Injected (s t : State) : Prop :=
  s.pixelCount.toNat ≤ s.caps.pCap.toNat ∧
  s.payloadLen.toNat ≤ s.caps.bCap.toNat ∧
  128 + s.payloadLen.toNat ≤ s.pixelCount.toNat ∧
  ∃ hdr, formattedHeader s = some hdr ∧ ∃ b, payloadBytes s = some b ∧
    ∃ cs, muxPixels s.memP 0 (hdr ++ b) = some cs ∧
      t = { s with memH := s.memH.writeBlock 0 hdr, memP := s.memP.writeBlock 0 cs, err := 0 }

theorem execInject_next : execInject s = .next t ↔
    (s.caps.pCap.toNat < s.pixelCount.toNat ∧ t = { s with err := 6 }) ∨
    (s.pixelCount.toNat ≤ s.caps.pCap.toNat ∧ s.caps.bCap.toNat < s.payloadLen.toNat ∧ t = { s with err := 6 }) ∨
    (s.pixelCount.toNat ≤ s.caps.pCap.toNat ∧ s.payloadLen.toNat ≤ s.caps.bCap.toNat ∧
      s.pixelCount.toNat < 128 + s.payloadLen.toNat ∧ t = { s with err := 1 }) ∨
    Injected s t := by
  simp only [execInject, capacity_lt, check_next, reading_next, commit_next, not_lt, and_or_left, errCode]

/-- What EXTRACT leaves when it succeeds, with the header it reads. -/
abbrev Extracted (s t : State) (hdr : List Byte) : Prop :=
  (hdrSizeOf hdr).toNat ≤ s.pixelCount.toNat - 128 ∧
  (hdrSizeOf hdr).toNat ≤ s.caps.bCap.toNat ∧
  ∃ d, gather (pixbyteAt s.memP) 128 (hdrSizeOf hdr).toNat = some d ∧
    t = { s with
      memH := s.memH.writeBlock 0 hdr
      hdrSize := hdrSizeOf hdr
      hdrNameLen := BitVec.ofNat 32 (namelen hdr)
      memB := s.memB.writeBlock 0 d
      payloadLen := hdrSizeOf hdr
      err := 0 }

theorem execExtract_next : execExtract s = .next t ↔
    (s.caps.pCap.toNat < s.pixelCount.toNat ∧ t = { s with err := 6 }) ∨
    (s.pixelCount.toNat ≤ s.caps.pCap.toNat ∧ s.pixelCount.toNat < 128 ∧ t = { s with err := 2 }) ∨
    (s.pixelCount.toNat ≤ s.caps.pCap.toNat ∧ 128 ≤ s.pixelCount.toNat ∧
      ∃ hdr, gather (pixbyteAt s.memP) 0 128 = some hdr ∧
        ((s.pixelCount.toNat - 128 < (hdrSizeOf hdr).toNat ∧ t = { s with err := 3 }) ∨
         ((hdrSizeOf hdr).toNat ≤ s.pixelCount.toNat - 128 ∧ s.caps.bCap.toNat < (hdrSizeOf hdr).toNat ∧
            t = { s with err := 6 }) ∨
         Extracted s t hdr)) := by
  simp only [execExtract, check_next, reading_next, commit_next, not_lt, and_or_left, errCode]

/-! All commands -/

theorem raised_of {e : ErrCode} (h : e = .payloadTooLarge ∨ e = .invalidHeader ∨ e = .truncatedStream ∨
    e = .bufferOverflow ∨ e = .symbolOverrun) : Raised s { s with err := errCode e } := ⟨e, h, rfl⟩

/-- What a command leaves when it succeeds. -/
def Succeeded : Instr → State → State → Prop
  | .nop, s, t => t = { s with err := 0 }
  | .formatHeader, s, t =>
    ∃ hdr, formattedHeader s = some hdr ∧ t = { s with memH := s.memH.writeBlock 0 hdr, err := 0 }
  | .symbolize, s, t => Symbolized false s t
  | .symbolizeH, s, t => Symbolized true s t
  | .desymbolize, s, t => Desymbolized s t
  | .embed, s, t => Embedded s t
  | .extractSymbols, s, t => SymbolsExtracted s t
  | .readHeader, s, t => HeaderRead s t
  | .readPayload, s, t => PayloadRead s t
  | .inject, s, t => Injected s t
  | .extract, s, t => s.pixelCount.toNat ≤ s.caps.pCap.toNat ∧ 128 ≤ s.pixelCount.toNat ∧
      ∃ hdr, gather (pixbyteAt s.memP) 0 128 = some hdr ∧ Extracted s t hdr

/-- The inversion lemma of `exec`: a command that answers a next state has raised an error or has succeeded. -/
theorem exec_next {i : Instr} (h : exec i s = .next t) : Raised s t ∨ Succeeded i s t := by
  have r6 : Raised s { s with err := 6 } := raised_of (e := .bufferOverflow) (by simp)
  have r3 : Raised s { s with err := 3 } := raised_of (e := .truncatedStream) (by simp)
  have r2 : Raised s { s with err := 2 } := raised_of (e := .invalidHeader) (by simp)
  have r1 : Raised s { s with err := 1 } := raised_of (e := .payloadTooLarge) (by simp)
  have r7 : Raised s { s with err := 7 } := raised_of (e := .symbolOverrun) (by simp)
  cases i with
  | nop => exact .inr (execNop_next.1 h)
  | formatHeader => exact .inr (execFormatHeader_next.1 h)
  | symbolize =>
    rcases (symbolizeWith_next false).1 h with ⟨-, rfl⟩ | ⟨-, -, rfl⟩ | h
    exacts [.inl r6, .inl r6, .inr h]
  | symbolizeH =>
    rcases (symbolizeWith_next true).1 h with ⟨-, rfl⟩ | ⟨-, -, rfl⟩ | h
    exacts [.inl r6, .inl r6, .inr h]
  | desymbolize =>
    rcases execDesymbolize_next.1 h with ⟨-, rfl⟩ | ⟨-, -, rfl⟩ | ⟨-, -, -, rfl⟩ | h
    exacts [.inl r6, .inl r3, .inl r6, .inr h]
  | embed =>
    rcases execEmbed_next.1 h with ⟨-, rfl⟩ | ⟨-, -, rfl⟩ | ⟨-, -, -, rfl⟩ | h
    exacts [.inl r6, .inl r6, .inl r7, .inr h]
  | extractSymbols =>
    rcases execExtractSymbols_next.1 h with ⟨-, rfl⟩ | ⟨-, -, rfl⟩ | h
    exacts [.inl r6, .inl r6, .inr h]
  | readHeader =>
    rcases execReadHeader_next.1 h with ⟨-, rfl⟩ | ⟨-, -, rfl⟩ | h
    exacts [.inl r6, .inl r2, .inr h]
  | readPayload =>
    rcases execReadPayload_next.1 h with ⟨-, rfl⟩ | ⟨-, -, rfl⟩ | ⟨-, -, -, rfl⟩ | h
    exacts [.inl r6, .inl r3, .inl r6, .inr h]
  | inject =>
    rcases execInject_next.1 h with ⟨-, rfl⟩ | ⟨-, -, rfl⟩ | ⟨-, -, -, rfl⟩ | h
    exacts [.inl r6, .inl r6, .inl r1, .inr h]
  | extract =>
    rcases execExtract_next.1 h with ⟨-, rfl⟩ | ⟨-, -, rfl⟩ | ⟨hp, hn, hdr, hh, ⟨-, rfl⟩ | ⟨-, -, rfl⟩ | h⟩
    exacts [.inl r6, .inl r2, .inl r3, .inl r6, .inr ⟨hp, hn, hdr, hh, h⟩]

/-- Success is STATUS.ERR = 0 (60_exceptions.md R204). -/
theorem Succeeded.err {i : Instr} (h : Succeeded i s t) : t.err = 0 := by
  cases i
  case nop => rw [h]
  case formatHeader => obtain ⟨_, _, rfl⟩ := h; rfl
  case symbolize => obtain ⟨_, _, _, _, _, _, rfl⟩ := h; rfl
  case symbolizeH => obtain ⟨_, _, _, _, _, _, rfl⟩ := h; rfl
  case desymbolize => obtain ⟨_, _, _, _, _, rfl⟩ := h; rfl
  case embed => obtain ⟨_, _, _, _, _, rfl⟩ := h; rfl
  case extractSymbols => obtain ⟨_, _, _, _, rfl⟩ := h; rfl
  case readHeader => obtain ⟨_, _, _, _, rfl⟩ := h; rfl
  case readPayload => obtain ⟨_, _, _, _, _, rfl⟩ := h; rfl
  case inject => obtain ⟨_, _, _, _, _, _, _, _, _, rfl⟩ := h; rfl
  case extract => obtain ⟨_, _, _, _, _, _, _, _, rfl⟩ := h; rfl

theorem succeeded_of_err {i : Instr} (h : exec i s = .next t) (he : t.err = 0) : Succeeded i s t :=
  (exec_next h).resolve_left fun r => r.err_ne_zero he

/-- Success is answered: what `Succeeded` says is what `exec` does. -/
theorem exec_of_succeeded {i : Instr} (h : Succeeded i s t) : exec i s = .next t := by
  cases i
  case nop => exact execNop_next.2 h
  case formatHeader => exact execFormatHeader_next.2 h
  case symbolize => exact (symbolizeWith_next false).2 (.inr (.inr h))
  case symbolizeH => exact (symbolizeWith_next true).2 (.inr (.inr h))
  case desymbolize => exact execDesymbolize_next.2 (.inr (.inr (.inr h)))
  case embed => exact execEmbed_next.2 (.inr (.inr (.inr h)))
  case extractSymbols => exact execExtractSymbols_next.2 (.inr (.inr h))
  case readHeader => exact execReadHeader_next.2 (.inr (.inr h))
  case readPayload => exact execReadPayload_next.2 (.inr (.inr (.inr h)))
  case inject => exact execInject_next.2 (.inr (.inr (.inr h)))
  case extract =>
    obtain ⟨hp, hn, hdr, hh, h⟩ := h
    exact execExtract_next.2 (.inr (.inr ⟨hp, hn, hdr, hh, .inr (.inr h)⟩))

end Sys2Proof.Machine
end

