-- ==== Sys2Proof/Laws/Codec.lean ====
section
/-! SUPPORT. How the units fit together: what one reads back of what another wrote, and operands that exist because their
elements are written. -/

namespace Sys2Proof.Machine

variable {s : State}

/-! Operands that exist -/

theorem gather_of_written {α : Type} {m : Memory α} {a n : Nat} (h : m.written a n) : ∃ l, gather m.read a n = some l :=
  Option.isSome_iff_exists.1 ((gather_isSome m.read a n).2 h)

theorem gather_pixbyteAt_of_written {m : Memory Byte} {a n : Nat} (h : m.written (4 * a) (4 * n)) :
    ∃ d, gather (pixbyteAt m) a n = some d :=
  Option.isSome_iff_exists.1 ((gather_pixbyte_isSome m a n).2 h)

theorem formattedHeader_of_written (h : s.memN.written 0 (min s.nameLen.toNat 124)) :
    ∃ hdr, formattedHeader s = some hdr := by
  obtain ⟨l, hl⟩ := gather_of_written h
  exact ⟨_, Option.map_eq_some_iff.2 ⟨l, hl, rfl⟩⟩

/-! Serializer and reassembler (40_bitstream_codec.md R103) -/

theorem packAt_serialize (m : Memory Symbol) (d : List Byte) (j : Nat) (b : Byte) (hj : d[j]? = some b) :
    packAt (m.writeBlock 0 (serialize d)) j = some b := by
  have hl : j < d.length := (List.getElem?_eq_some_iff.1 hj).1
  rw [packAt_eq _ _ (fun q => sym b q), pack_sym]
  intro q hq
  rw [Memory.read_writeBlock_zero, if_pos (by simp; omega), serialize_get _ _ _ hq, hj]
  rfl

/-- Reassembling the symbols of a byte sequence gives the sequence. -/
theorem gather_packAt_serialize (m : Memory Symbol) (d : List Byte) :
    gather (packAt (m.writeBlock 0 (serialize d))) 0 d.length = some d := by
  rw [gather_eq_some]
  refine ⟨rfl, fun k hk => ?_⟩
  have : d[k]? = some d[k] := List.getElem?_eq_getElem hk
  rw [Nat.zero_add, packAt_serialize _ _ _ _ this, this]

/-- Reassembling extracted symbols gives the bytes the pixels carry (42_channel_reader.md R146). -/
theorem packAt_demux (p : Memory Byte) (m : Memory Symbol) (n : Nat) (cs : List Byte) (h : p.readBlock 0 n = some cs)
    (j : Nat) (hj : 4 * j + 4 ≤ n) : packAt (m.writeBlock 0 (cs.map demuxCh)) j = pixbyteAt p j := by
  have hl := gather_length h
  have g : ∀ k, k < n → (m.writeBlock 0 (cs.map demuxCh)).read k = (p.read k).map demuxCh := by
    intro k hk
    rw [Memory.read_writeBlock_zero, if_pos (by simp; omega), List.getElem?_map, ← gather_get h hk, Nat.zero_add]
  rw [packAt, g _ (by omega), g _ (by omega), g _ (by omega), g _ (by omega), pixbyteAt, Memory.pixel]
  cases p.read (4 * j) <;> cases p.read (4 * j + 1) <;> cases p.read (4 * j + 2) <;> cases p.read (4 * j + 3) <;> rfl

/-! Multiplexer (43_header_orchestration.md R168, R169) -/

/-- Embedding the symbols of a byte sequence writes the channels INJECT writes. -/
theorem gather_muxAt_serialize (p : Memory Byte) (m : Memory Symbol) (d cs : List Byte)
    (h : muxPixels p 0 d = some cs) :
    gather (muxAt p (m.writeBlock 0 (serialize d))) 0 (4 * d.length) = some cs := by
  rw [gather_eq_some]
  have hl := length_muxPixels h
  refine ⟨hl, fun k hk => ?_⟩
  have hd : d[k / 4]? = some d[k / 4] := List.getElem?_eq_getElem (by omega)
  have hm := muxPixels_get h (k / 4) _ hd (k % 4) (by omega)
  rw [show 4 * (k / 4) + k % 4 = k by omega, show 4 * (0 + k / 4) + k % 4 = k by omega] at hm
  have hs : (m.writeBlock 0 (serialize d)).read k = some (sym d[k / 4] (k % 4)) := by
    rw [Memory.read_writeBlock_zero, if_pos (by simp; omega)]
    have hg := serialize_get d (k / 4) (k % 4) (by omega)
    rw [show 4 * (k / 4) + k % 4 = k by omega, hd] at hg
    exact hg
  rw [Nat.zero_add, hm, muxAt, hs]
  cases p.read k <;> rfl

/-- A pixel carries the byte the multiplexer wrote into it. -/
theorem pixbyteAt_muxPixels (p : Memory Byte) (d cs : List Byte) (h : muxPixels p 0 d = some cs) (j : Nat) (b : Byte)
    (hj : d[j]? = some b) : pixbyteAt (p.writeBlock 0 cs) j = some b := by
  have hl := length_muxPixels h
  have hjl : j < d.length := (List.getElem?_eq_some_iff.1 hj).1
  have hw := (muxPixels_isSome p 0 d).1 (by rw [h]; rfl)
  have g : ∀ q, q < 4 → ∃ c, (p.writeBlock 0 cs).read (4 * j + q) = some (muxCh c (sym b q)) := by
    intro q hq
    obtain ⟨c, hc⟩ := Option.isSome_iff_exists.1 (hw (4 * j + q) (by omega))
    refine ⟨c, ?_⟩
    rw [Memory.read_writeBlock_zero, if_pos (by omega), muxPixels_get h j b hj q hq,
      show 4 * (0 + j) + q = 4 * 0 + (4 * j + q) by omega, hc]
    rfl
  obtain ⟨c0, g0⟩ := g 0 (by omega)
  obtain ⟨c1, g1⟩ := g 1 (by omega)
  obtain ⟨c2, g2⟩ := g 2 (by omega)
  obtain ⟨c3, g3⟩ := g 3 (by omega)
  rw [Nat.add_zero] at g0
  rw [pixbyteAt, Memory.pixel, g0, g1, g2, g3]
  simp [pixbyte, demuxCh_muxCh, pack_sym]

/-- The pixels carry the byte sequence the multiplexer wrote into them. -/
theorem gather_pixbyteAt_muxPixels (p : Memory Byte) (d cs : List Byte) (h : muxPixels p 0 d = some cs) (a n : Nat)
    (hn : a + n ≤ d.length) : gather (pixbyteAt (p.writeBlock 0 cs)) a n = some ((d.drop a).take n) := by
  rw [gather_eq_some]
  refine ⟨by simp; omega, fun k hk => ?_⟩
  have : d[a + k]? = some d[a + k] := List.getElem?_eq_getElem (by omega)
  rw [pixbyteAt_muxPixels p d cs h _ _ this, List.getElem?_take_of_lt hk, List.getElem?_drop, this]

/-! Headers -/

/-- HDR_NAME_LEN holds the name length exactly: at most 124 (10_state.md R32). -/
@[simp] theorem toNat_namelen (hdr : List Byte) : (BitVec.ofNat 32 (namelen hdr)).toNat = namelen hdr := by
  have := namelen_le hdr
  rw [BitVec.toNat_ofNat, Nat.mod_eq_of_lt (by omega)]

/-- A header's size is the word whose bytes are its first four. -/
theorem hdrSizeOf_eq (hdr : List Byte) (v : Word) (h : ∀ i, i < 4 → hdr[i]? = some (v.extractLsb' (8 * i) 8)) :
    hdrSizeOf hdr = v := by
  have h0 := h 0 (by omega)
  have h1 := h 1 (by omega)
  have h2 := h 2 (by omega)
  have h3 := h 3 (by omega)
  simp only [hdrSizeOf, List.getD, h0, h1, h2, h3, Option.getD_some]
  exact unle32_le32 v

end Sys2Proof.Machine
end

