-- ==== Sys2Proof/Laws/PerInstr.lean ====
section
/-! SUPPORT. A statement about every command as syntax, one lemma per command: it is well formed and its word, written by the
encoder, is read back by the host's decoder entry. -/

namespace Sys2Proof.Laws.EncodeDecode

/-- The command is well formed, its word is at most 0x12, and the decoder reads the word back from 32 bits. -/
def Statement (i : Instr) : Prop :=
  i.wf = true ∧ (encode i).toNat ≤ 0x12 ∧ decodeTableWord 32 (encode i).toNat = some i

theorem nop : Statement .nop := ⟨rfl, by decide, rfl⟩
theorem formatHeader : Statement .formatHeader := ⟨rfl, by decide, rfl⟩
theorem symbolize : Statement .symbolize := ⟨rfl, by decide, rfl⟩
theorem symbolizeH : Statement .symbolizeH := ⟨rfl, by decide, rfl⟩
theorem desymbolize : Statement .desymbolize := ⟨rfl, by decide, rfl⟩
theorem embed : Statement .embed := ⟨rfl, by decide, rfl⟩
theorem extractSymbols : Statement .extractSymbols := ⟨rfl, by decide, rfl⟩
theorem readHeader : Statement .readHeader := ⟨rfl, by decide, rfl⟩
theorem readPayload : Statement .readPayload := ⟨rfl, by decide, rfl⟩
theorem inject : Statement .inject := ⟨rfl, by decide, rfl⟩
theorem extract : Statement .extract := ⟨rfl, by decide, rfl⟩

end Sys2Proof.Laws.EncodeDecode
end

