-- ==== Sys2Proof/Laws/State.lean ====
section
/-! SUPPORT. One lemma per field and named update of the state, each true by rfl or by cases on the register, so that no
later proof unfolds a record update; and the reset state's fields. -/

namespace Sys2Proof.Machine

variable (s : State) (c : Caps) (r : Reg) (w : Word)

/-! Reset (70_reset_and_hazards.md R240, R241) -/

@[simp] theorem resetWith_cmd : (State.resetWith c).cmd = 0 := rfl
@[simp] theorem resetWith_err : (State.resetWith c).err = 0 := rfl
@[simp] theorem resetWith_busy : (State.resetWith c).busy = false := rfl
@[simp] theorem resetWith_pixelCount : (State.resetWith c).pixelCount = 0 := rfl
@[simp] theorem resetWith_payloadLen : (State.resetWith c).payloadLen = 0 := rfl
@[simp] theorem resetWith_nameLen : (State.resetWith c).nameLen = 0 := rfl
@[simp] theorem resetWith_symLen : (State.resetWith c).symLen = 0 := rfl
@[simp] theorem resetWith_hdrSize : (State.resetWith c).hdrSize = 0 := rfl
@[simp] theorem resetWith_hdrNameLen : (State.resetWith c).hdrNameLen = 0 := rfl
@[simp] theorem resetWith_caps : (State.resetWith c).caps = c := rfl
@[simp] theorem resetWith_memP : (State.resetWith c).memP = [] := rfl
@[simp] theorem resetWith_memB : (State.resetWith c).memB = [] := rfl
@[simp] theorem resetWith_memH : (State.resetWith c).memH = [] := rfl
@[simp] theorem resetWith_memN : (State.resetWith c).memN = [] := rfl
@[simp] theorem resetWith_memS : (State.resetWith c).memS = [] := rfl
@[simp] theorem resetWith_host : (State.resetWith c).host = [] := rfl
@[simp] theorem resetWith_replies : (State.resetWith c).replies = [] := rfl

/-- The empty memory of reset is in canonical form. -/
@[simp] theorem Memory.wf_nil (α : Type) : Memory.wf ([] : Memory α) := List.Pairwise.nil

/-- The empty memory of reset lies in a space of any size. -/
@[simp] theorem Memory.within_nil (α : Type) (n : Nat) : Memory.within ([] : Memory α) n := nofun

/-! A host write to a register (10_state.md R20) -/

@[simp] theorem writeReg_err : (writeReg s r w).err = s.err := by cases r <;> rfl
@[simp] theorem writeReg_busy : (writeReg s r w).busy = s.busy := by cases r <;> rfl
@[simp] theorem writeReg_hdrNameLen : (writeReg s r w).hdrNameLen = s.hdrNameLen := by cases r <;> rfl
@[simp] theorem writeReg_caps : (writeReg s r w).caps = s.caps := by cases r <;> rfl
@[simp] theorem writeReg_memP : (writeReg s r w).memP = s.memP := by cases r <;> rfl
@[simp] theorem writeReg_memB : (writeReg s r w).memB = s.memB := by cases r <;> rfl
@[simp] theorem writeReg_memH : (writeReg s r w).memH = s.memH := by cases r <;> rfl
@[simp] theorem writeReg_memN : (writeReg s r w).memN = s.memN := by cases r <;> rfl
@[simp] theorem writeReg_memS : (writeReg s r w).memS = s.memS := by cases r <;> rfl
@[simp] theorem writeReg_host : (writeReg s r w).host = s.host := by cases r <;> rfl
@[simp] theorem writeReg_replies : (writeReg s r w).replies = s.replies := by cases r <;> rfl

/-- A read after a write of another register gives what it gave before; the capacity registers follow PIXEL_COUNT. -/
theorem readReg_writeReg_other {r' : Reg} (h : r' ≠ r) (hl : r' ≠ .capacityLo) (hh : r' ≠ .capacityHi) :
    readReg (writeReg s r w) r' = readReg s r' := by
  cases r <;> cases r' <;> first | rfl | exact absurd rfl h | exact absurd rfl hl | exact absurd rfl hh

/-! A reset by the platform (70_reset_and_hazards.md R242) -/

@[simp] theorem platformReset_caps : (platformReset s).caps = s.caps := rfl
@[simp] theorem platformReset_host : (platformReset s).host = s.host := rfl
@[simp] theorem platformReset_replies : (platformReset s).replies = s.replies := rfl
@[simp] theorem platformReset_err : (platformReset s).err = 0 := rfl
@[simp] theorem platformReset_busy : (platformReset s).busy = false := rfl

/-! Placing a command word -/

variable (n v : Nat)

@[simp] theorem withFetchWord_busy : (s.withFetchWord n v).busy = false := rfl
@[simp] theorem withFetchWord_host :
    (s.withFetchWord n v).host = .regWrite 0 4 (BitVec.ofNat 32 (v % 2 ^ n)) :: s.host := rfl
@[simp] theorem withFetchWord_caps : (s.withFetchWord n v).caps = s.caps := rfl
@[simp] theorem withFetchWord_memP : (s.withFetchWord n v).memP = s.memP := rfl
@[simp] theorem withFetchWord_memB : (s.withFetchWord n v).memB = s.memB := rfl
@[simp] theorem withFetchWord_memH : (s.withFetchWord n v).memH = s.memH := rfl
@[simp] theorem withFetchWord_memN : (s.withFetchWord n v).memN = s.memN := rfl
@[simp] theorem withFetchWord_memS : (s.withFetchWord n v).memS = s.memS := rfl

end Sys2Proof.Machine
end

