-- ==== Sys2Proof/Laws/Step.lean ====
section
/-! SUPPORT. Laws of the host's interactions and of a step: one lemma per interaction, and what a command keeps. -/

namespace Sys2Proof.Machine

variable {s t : State} {rest : List HostStep}

/-! The register map -/

@[simp] theorem regAt_regOffset (r : Reg) : regAt (regOffset r) = some r := by cases r <;> rfl

theorem regAt_eq_some {o : Nat} {r : Reg} (h : regAt o = some r) : o = regOffset r := by
  have h' : (regOffset r == o) = true := List.find?_some (p := fun r => regOffset r == o) h
  exact (beq_iff_eq.1 h').symm

theorem regOffset_le (r : Reg) : regOffset r ≤ 0x34 := by cases r <;> decide

theorem regAt_reserved {o : Nat} (h : 0x38 ≤ o) : regAt o = none := by
  cases hr : regAt o with
  | none => rfl
  | some r =>
    have := regAt_eq_some hr
    have := regOffset_le r
    omega

@[simp] theorem registerAccessOk_regOffset (r : Reg) : registerAccessOk (regOffset r) 4 = true := by
  cases r <;> rfl

theorem registerAccessOk_iff (o w : Nat) : registerAccessOk o w = true ↔ w = 4 ∧ o % 4 = 0 ∧ o ≤ 0xFC := by
  simp [registerAccessOk, and_assoc]

theorem registerAccessOk_false {o w : Nat} (h : 0xFC < o ∨ o % 4 ≠ 0 ∨ w ≠ 4) : registerAccessOk o w = false := by
  rw [Bool.eq_false_iff]
  intro hk
  have := (registerAccessOk_iff o w).1 hk
  omega

/-! Steps -/

theorem step_idle (h : s.host = []) : step s = .next s := by simp [step, h]

theorem step_cons {x : HostStep} (h : s.host = x :: rest) : step s = interact x { s with host := rest } := by
  simp [step, h]

theorem interact_regWrite (hb : s.busy = false) (o w : Nat) (v : Word) :
    interact (.regWrite o w v) s = hostRegWrite o w v s := by simp [interact, hb]

theorem interact_regRead (hb : s.busy = false) (o w : Nat) :
    interact (.regRead o w) s = hostRegRead o w s := by simp [interact, hb]

theorem interact_memWrite (hb : s.busy = false) (sp : Space) (a : Nat) (v : Byte) :
    interact (.memWrite sp a v) s = hostMemWrite sp a v s := by simp [interact, hb]

theorem interact_memRead (hb : s.busy = false) (sp : Space) (a : Nat) :
    interact (.memRead sp a) s = hostMemRead sp a s := by simp [interact, hb]

@[simp] theorem interact_platformReset : interact .platformReset s = .next (platformReset s) := by
  simp [interact, allowedWhileBusy]

theorem hostRegRead_reg (r : Reg) : hostRegRead (regOffset r) 4 s = reply (.word (readReg s r)) s := by
  simp [hostRegRead]

theorem hostRegWrite_cmd (w : Word) : hostRegWrite 0x00 4 w s = issueCommand w s := rfl

theorem hostRegWrite_reg {r : Reg} (hr : r ≠ .cmd) (w : Word) :
    hostRegWrite (regOffset r) 4 w s = .next (writeReg s r w) := by
  cases r <;> first | exact absurd rfl hr | rfl

theorem issueCommand_ok {w : Word} {i : Instr} (h : decode w = .ok i) :
    issueCommand w s = exec i { s with cmd := w } := by
  simp [issueCommand, h, writeReg]

theorem issueCommand_error {w : Word} {e : Illegal} (h : decode w = .error e) :
    issueCommand w s = .next { s with cmd := w, err := 5 } := by
  simp [issueCommand, h, writeReg, raise_eq, errCode]

/-- A command issued by the host is run: the oldest interaction is a write of a legal word to CMD. -/
theorem step_command {w : Word} {i : Instr} (hb : s.busy = false) (hh : s.host = .regWrite 0x00 4 w :: rest)
    (hd : decode w = .ok i) : step s = exec i { s with cmd := w, host := rest } := by
  rw [step_cons hh, interact_regWrite (by simpa using hb), hostRegWrite_cmd, issueCommand_ok hd]

theorem step_regRead {r : Reg} (hb : s.busy = false) (hh : s.host = .regRead (regOffset r) 4 :: rest) :
    step s = .next { s with host := rest, replies := .word (readReg s r) :: s.replies } := by
  rw [step_cons hh, interact_regRead (by simpa using hb), hostRegRead_reg]
  cases r <;> rfl

/-! Elements -/

theorem readElement_writeElement_other {sp sp' : Space} {a a' : Nat} (v : Byte) (h : (sp', a') ≠ (sp, a)) :
    readElement (writeElement s sp a v) sp' a' = readElement s sp' a' := by
  have ha : sp = sp' → a' ≠ a := fun e ha => h (by rw [e, ha])
  cases sp <;> cases sp' <;> simp [writeElement, readElement, Memory.read_write_other _ _ _ _ (ha _)]

theorem readElement_writeElement_same {sp : Space} (a : Nat) (v : Byte) (h : sp ≠ .s) :
    readElement (writeElement s sp a v) sp a = some v := by
  cases sp <;> first | exact absurd rfl h | simp [writeElement, readElement, Memory.read_write_same]

@[simp] theorem host_writeElement (sp : Space) (a : Nat) (v : Byte) : (writeElement s sp a v).host = s.host := by
  cases sp <;> rfl

@[simp] theorem busy_writeElement (sp : Space) (a : Nat) (v : Byte) : (writeElement s sp a v).busy = s.busy := by
  cases sp <;> rfl

@[simp] theorem caps_writeElement (sp : Space) (a : Nat) (v : Byte) : (writeElement s sp a v).caps = s.caps := by
  cases sp <;> rfl

@[simp] theorem err_writeElement (sp : Space) (a : Nat) (v : Byte) : (writeElement s sp a v).err = s.err := by
  cases sp <;> rfl

/-! What every command keeps (10_state.md R39) -/

/-- The fields no command writes. -/
structure SameInputs (s t : State) : Prop where
  cmd : t.cmd = s.cmd
  busy : t.busy = s.busy
  pixelCount : t.pixelCount = s.pixelCount
  nameLen : t.nameLen = s.nameLen
  caps : t.caps = s.caps
  memN : t.memN = s.memN
  host : t.host = s.host
  replies : t.replies = s.replies

theorem Succeeded.same {i : Instr} (h : Succeeded i s t) : SameInputs s t := by
  cases i
  case nop => rw [h]; constructor <;> rfl
  case formatHeader => obtain ⟨_, _, rfl⟩ := h; constructor <;> rfl
  case symbolize => obtain ⟨_, _, _, _, _, _, rfl⟩ := h; constructor <;> rfl
  case symbolizeH => obtain ⟨_, _, _, _, _, _, rfl⟩ := h; constructor <;> rfl
  case desymbolize => obtain ⟨_, _, _, _, _, rfl⟩ := h; constructor <;> rfl
  case embed => obtain ⟨_, _, _, _, _, rfl⟩ := h; constructor <;> rfl
  case extractSymbols => obtain ⟨_, _, _, _, rfl⟩ := h; constructor <;> rfl
  case readHeader => obtain ⟨_, _, _, _, rfl⟩ := h; constructor <;> rfl
  case readPayload => obtain ⟨_, _, _, _, _, rfl⟩ := h; constructor <;> rfl
  case inject => obtain ⟨_, _, _, _, _, _, _, _, _, rfl⟩ := h; constructor <;> rfl
  case extract => obtain ⟨_, _, _, _, _, _, _, _, rfl⟩ := h; constructor <;> rfl

theorem Raised.same (h : Raised s t) : SameInputs s t := by
  obtain ⟨_, _, rfl⟩ := h
  constructor <;> rfl

theorem exec_same {i : Instr} (h : exec i s = .next t) : SameInputs s t :=
  (exec_next h).elim Raised.same Succeeded.same

/-! Everything a step can do -/

/-- What a step that answers a next state did: nothing was to come, or the oldest host interaction was one of these. -/
inductive Stepped (s t : State) : Prop where
  | idle (hh : s.host = []) (ht : t = s)
  | command (w : Word) (i : Instr) (rest : List HostStep) (hh : s.host = .regWrite 0x00 4 w :: rest)
      (hd : decode w = .ok i) (ht : exec i { s with cmd := w, host := rest } = .next t)
  | illegal (w : Word) (e : Illegal) (rest : List HostStep) (hh : s.host = .regWrite 0x00 4 w :: rest)
      (hd : decode w = .error e) (ht : t = { s with cmd := w, host := rest, err := 5 })
  | register (r : Reg) (w : Word) (rest : List HostStep) (hr : r ≠ .cmd)
      (hh : s.host = .regWrite (regOffset r) 4 w :: rest) (ht : t = writeReg { s with host := rest } r w)
  | reserved (o : Nat) (w : Word) (rest : List HostStep) (ho : o ≠ 0) (hh : s.host = .regWrite o 4 w :: rest)
      (ht : t = { s with host := rest })
  | answered (x : HostStep) (a : Reply) (rest : List HostStep) (hh : s.host = x :: rest)
      (hx : (∃ o, x = .regRead o 4) ∨ ∃ sp k, x = .memRead sp k)
      (ht : t = { s with host := rest, replies := a :: s.replies })
  | stored (sp : Space) (a : Nat) (v : Byte) (rest : List HostStep) (hh : s.host = .memWrite sp a v :: rest)
      (ha : a < spaceSize s.caps sp) (ht : t = writeElement { s with host := rest } sp a v)
  | reset (rest : List HostStep) (hh : s.host = .platformReset :: rest) (ht : t = platformReset { s with host := rest })

/-- Every step that answers a next state is one of those. -/
theorem step_cases (h : step s = .next t) : Stepped s t := by
  cases hh : s.host with
  | nil =>
    rw [step_idle hh] at h
    cases h
    exact .idle hh rfl
  | cons x rest =>
    rw [step_cons hh, interact.eq_def] at h
    split at h
    · cases h
    cases x with
    | regWrite o n w =>
      simp only [hostRegWrite] at h
      split at h
      · next hok =>
        obtain ⟨rfl, -, -⟩ := (registerAccessOk_iff o n).1 hok
        split at h
        · next hr =>
          have ho := regAt_eq_some hr
          change o = 0 at ho
          subst ho
          cases hd : decode w with
          | ok i =>
            rw [issueCommand_ok hd] at h
            exact .command w i rest hh hd h
          | error e =>
            rw [issueCommand_error hd] at h
            cases h
            exact .illegal w e rest hh hd rfl
        · next r hne hr =>
          have ho := regAt_eq_some hr
          subst ho
          cases h
          exact .register r w rest hne hh rfl
        · next hr =>
          cases h
          exact .reserved o w rest (by rintro rfl; cases hr) hh rfl
      · cases h
    | regRead o n =>
      simp only [hostRegRead] at h
      split at h
      · next hok =>
        obtain ⟨rfl, -, -⟩ := (registerAccessOk_iff o n).1 hok
        split at h <;> cases h <;> exact .answered _ _ rest hh (.inl ⟨_, rfl⟩) rfl
      · cases h
    | memWrite sp a v =>
      simp only [hostMemWrite] at h
      split at h
      · next ha =>
        cases h
        exact .stored sp a v rest hh ha rfl
      · cases h
    | memRead sp a =>
      simp only [hostMemRead] at h
      split at h
      · simp only [reading_next] at h
        obtain ⟨v, -, h⟩ := h
        cases h
        exact .answered _ _ rest hh (.inr ⟨_, _, rfl⟩) rfl
      · cases h
    | platformReset =>
      cases h
      exact .reset rest hh rfl

/-! Runs -/

/-- The first step of a run. -/
theorem run_one (h : step s = .next t) (k : Nat) : Host.Core.run core (k + 1) s = Host.Core.run core k t := by
  have h' : core.step s = .next t := h
  simp only [Host.Core.run, h']

/-- A run of `a + b` steps is a run of `b` steps after one of `a`. -/
theorem run_add (M : Host.Core) (a b : Nat) (s t : M.State) (h : M.run a s = .next t) : M.run (a + b) s = M.run b t := by
  induction a generalizing s with
  | zero =>
    simp only [Host.Core.run, Host.Outcome.next.injEq] at h
    simp [h]
  | succ a ih =>
    rw [Nat.add_right_comm]
    rw [Host.Core.run] at h ⊢
    cases hs : M.step s with
    | next u => rw [hs] at h; exact ih u h
    | fault r => rw [hs] at h; cases h
    | refused r => rw [hs] at h; cases h

/-- A run of register reads gives the registers' values and changes nothing in the block. -/
theorem run_reads (rs : List Reg) (s : State) (rest : List HostStep) (hb : s.busy = false)
    (hh : s.host = rs.map (fun r => .regRead (regOffset r) 4) ++ rest) :
    Host.Core.run core rs.length s =
      .next { s with host := rest, replies := (rs.map fun r => Reply.word (readReg s r)).reverse ++ s.replies } := by
  induction rs generalizing s with
  | nil =>
    have : s.host = rest := hh
    subst this
    rfl
  | cons r rs ih =>
    have h1 : step s = .next { s with
        host := rs.map (fun r => .regRead (regOffset r) 4) ++ rest, replies := .word (readReg s r) :: s.replies } :=
      step_regRead hb hh
    rw [List.length_cons, run_one h1]
    refine (ih _ (by exact hb) (by rfl)).trans ?_
    have e : ∀ (x : List HostStep) (y : List Reply) (r' : Reg),
        readReg { s with host := x, replies := y } r' = readReg s r' := by
      intro x y r'
      cases r' <;> rfl
    simp [e]

end Sys2Proof.Machine
end

