-- ==== Sys2Proof/Tests/Slice0.lean ====
section
/-! SUPPORT. Tests. Expected results come from the spec's encodings (30_encoding.md) and vectors (95_test_vectors.md), each
named at its test. The last part shows, for each obligation that has hypotheses, a concrete state that meets them. -/

open Sys2Proof Sys2Proof.Machine Sys2Proof.Claims

namespace Sys2Proof.Tests

/-! States to test on -/

/-- A block with the capacities of 95_test_vectors.md: P_CAP = 256, B_CAP = 256, S_CAP = 1024, N_CAP = 256. -/
def block : State := State.resetWith ⟨256, 256, 1024, 256⟩

/-- A memory that holds `vs` from index 0 on. -/
def holding {α : Type} (vs : List α) : Memory α := cells 0 vs

/-- `n` pixels with every channel `c`. -/
def plain (n : Nat) (c : Byte) : Memory Byte := holding (List.replicate (4 * n) c)

/-- Pixels with cover channels `c` that carry the bytes `d`, from pixel `i` on, written with the spec's shifts. -/
def carrying (i : Nat) (c : Byte) (d : List Byte) : Memory Byte :=
  cells (4 * i) (d.flatMap fun b => [c ||| (b &&& 3), c ||| ((b >>> 2) &&& 3), c ||| ((b >>> 4) &&& 3), c ||| (b >>> 6)])

/-- The name "a.txt". -/
def aTxt : List Byte := [0x61, 0x2E, 0x74, 0x78, 0x74]

/-- The header of `size` (at most 255) with name "a.txt". -/
def aTxtHeader (size : Byte) : List Byte := [size, 0, 0, 0] ++ aTxt ++ List.replicate 119 0

/-- The outcome is a next state that passes the check. -/
def nextIs (r : Result) (check : State → Bool) : Bool :=
  match r with
  | .next t => check t
  | .fault _ => false
  | .refused _ => false

/-! Well-formedness: each check refuses an ill-formed term -/

theorem test_wf_refuses_reserved : (⟨0x8, 0, 1⟩ : CommandFields).reservedClear = false ∧ (⟨0x8, 0, 1⟩ : CommandFields).wf = false := by
  decide

theorem test_wf_refuses_opcode : (⟨0xA, 0, 0⟩ : CommandFields).opcodeDefined = false ∧ (⟨0xA, 0, 0⟩ : CommandFields).wf = false := by
  decide

theorem test_wf_refuses_header_bit : (⟨0x8, 1, 0⟩ : CommandFields).prefixAllowed = false ∧ (⟨0x8, 1, 0⟩ : CommandFields).wf = false := by
  decide

theorem test_memory_wf_refuses_order : ¬ Memory.wf ([(2, 0#8), (1, 0#8)] : Memory Byte) := by decide

theorem test_memory_wf_refuses_repeat : ¬ Memory.wf ([(2, 0#8), (2, 1#8)] : Memory Byte) := by decide

/-! Decoding: words written out from the fields of 30_encoding.md R71 (RSV, HP, OP) and the map R72 -/

theorem test_decode_nop : decode (0#27 ++ 0b0#1 ++ 0b0000#4) = .ok .nop := by decide
theorem test_decode_formatHeader : decode (0#27 ++ 0b0#1 ++ 0b0001#4) = .ok .formatHeader := by decide
theorem test_decode_symbolize : decode (0#27 ++ 0b0#1 ++ 0b0010#4) = .ok .symbolize := by decide
theorem test_decode_symbolizeH : decode (0#27 ++ 0b1#1 ++ 0b0010#4) = .ok .symbolizeH := by decide
theorem test_decode_desymbolize : decode (0#27 ++ 0b0#1 ++ 0b0011#4) = .ok .desymbolize := by decide
theorem test_decode_embed : decode (0#27 ++ 0b0#1 ++ 0b0100#4) = .ok .embed := by decide
theorem test_decode_extractSymbols : decode (0#27 ++ 0b0#1 ++ 0b0101#4) = .ok .extractSymbols := by decide
theorem test_decode_readHeader : decode (0#27 ++ 0b0#1 ++ 0b0110#4) = .ok .readHeader := by decide
theorem test_decode_readPayload : decode (0#27 ++ 0b0#1 ++ 0b0111#4) = .ok .readPayload := by decide
theorem test_decode_inject : decode (0#27 ++ 0b0#1 ++ 0b1000#4) = .ok .inject := by decide
theorem test_decode_extract : decode (0#27 ++ 0b0#1 ++ 0b1001#4) = .ok .extract := by decide

/-- 95_test_vectors.md §2.3, the illegal words. -/
theorem test_decode_illegal :
    [0x0000000A#32, 0x0000000F#32, 0x0000001A#32].all (fun w => decide (decode w = .error .undefinedOpcode)) = true ∧
    [0x00000010#32, 0x00000011#32, 0x00000013#32, 0x00000014#32, 0x00000018#32].all
      (fun w => decide (decode w = .error .headerPrefix)) = true ∧
    [0x00000020#32, 0x80000008#32, 0xFFFFFFFF#32].all (fun w => decide (decode w = .error .reservedBits)) = true := by
  decide

/-- The host's entries agree with the map: SYMBOLIZE.H is 0x12, and 0x13 is refused. -/
theorem test_decodeTableWord : decodeTableWord 32 0x12 = some .symbolizeH ∧ decodeTableWord 32 0x13 = none := by decide

/-- A command placed right after reset is run: NOP leaves STATUS.ERR 0, INJECT with no pixels gives PAYLOAD_TOO_LARGE. -/
theorem test_withFetchWord :
    step ((State.resetWith ⟨0, 0, 0, 124⟩).withFetchWord 32 0x8) =
      .next { State.resetWith ⟨0, 0, 0, 124⟩ with cmd := 0x8, err := 1 } := by rfl

/-! Functions (95_test_vectors.md X1 to X3, §2.1, §2.2) -/

theorem test_sym : symbolsOf 0xB4 = [0, 1, 3, 2] ∧ symbolsOf 0x1B = [3, 2, 1, 0] ∧ symbolsOf 0x41 = [1, 0, 0, 1] := by decide

theorem test_pack : pack 0 1 3 2 = 0xB4 ∧ pack 3 3 3 3 = 0xFF := by decide

theorem test_mux : muxCh 0xAB 2 = 0xAA ∧ muxCh 0xFF 0 = 0xFC ∧ muxCh 0x00 3 = 0x03 ∧ demuxCh 0xFE = 2 := by decide

theorem test_le32 : le32 0x12345678 = [0x78, 0x56, 0x34, 0x12] ∧ unle32 0x32 0 0 0 = 50 ∧
    unle32 0xFF 0xFF 0xFF 0xFF = 0xFFFFFFFF ∧ le32 300 = [0x2C, 0x01, 0, 0] := by decide

theorem test_namelen :
    namelen (fmtHeader 0 [0x61, 0x62]) = 2 ∧ namelen (fmtHeader 0 [0x61, 0x62, 0, 0x63]) = 4 ∧
    namelen (fmtHeader 0 []) = 0 ∧ namelen (fmtHeader 0 [0x61, 0x62, 0]) = 2 ∧
    namelen (fmtHeader 0 (List.replicate 124 0x41)) = 124 := by decide +kernel

theorem test_capacity :
    capacityLo { block with pixelCount := 100 } = 0xFFFFFFE4 ∧ capacityHi { block with pixelCount := 127 } = 0xFFFFFFFF ∧
    capacityHi { block with pixelCount := 128 } = 0 ∧ capacityLo { block with pixelCount := 0xFFFFFFFF } = 0xFFFFFF7F := by
  decide

/-! Commands -/

/-- V-H1. -/
theorem test_nop : exec .nop { block with err := 1 } = .next block := by rfl

/-- V-H2. -/
theorem test_formatHeader : nextIs (exec .formatHeader { block with payloadLen := 50, nameLen := 5, memN := holding aTxt })
    (fun t => t.err == 0 && t.memH.readBlock 0 128 == some (aTxtHeader 0x32)) = true := by decide +kernel

/-- V-H4: no check of a capacity, and only 124 bytes of the name. -/
theorem test_formatHeader_long : nextIs (exec .formatHeader
    { block with payloadLen := 0xFFFFFFFF, nameLen := 0xFFFFFFFF, memN := holding (List.replicate 124 0x41) })
    (fun t => t.err == 0 && t.memH.readBlock 0 128 == some ([0xFF, 0xFF, 0xFF, 0xFF] ++ List.replicate 124 0x41)) = true := by
  decide +kernel

/-- V-C2. -/
theorem test_symbolize : nextIs (exec .symbolize { block with payloadLen := 3, memB := holding [0x48, 0x69, 0x21] })
    (fun t => t.err == 0 && t.symLen == 12 && t.memS == holding [0, 2, 0, 1, 1, 2, 2, 1, 1, 0, 2, 0]) = true := by
  decide +kernel

/-- V-C7: S_CAP = 16 and 20 symbols. -/
theorem test_symbolize_overflow : nextIs (exec .symbolize
    { State.resetWith ⟨256, 256, 16, 256⟩ with payloadLen := 5, memB := holding [1, 2, 3, 4, 5] })
    (fun t => t.err == 6 && t.symLen == 0 && t.memS == []) = true := by decide +kernel

/-- V-C5. -/
theorem test_symbolizeH : nextIs (exec .symbolizeH
    { block with payloadLen := 1, memH := holding (1 :: List.replicate 127 0), memB := holding [0xB4] })
    (fun t => t.err == 0 && t.symLen == 516 && t.memS.readBlock 0 5 == some [1, 0, 0, 0, 0] &&
      t.memS.readBlock 511 5 == some [0, 0, 1, 3, 2]) = true := by decide +kernel

/-- V-C9: S_CAP = 520 and 524 symbols. -/
theorem test_symbolizeH_overflow : nextIs (exec .symbolizeH { State.resetWith ⟨256, 256, 520, 256⟩ with payloadLen := 3 })
    (fun t => t.err == 6) = true := by decide +kernel

/-- V-C12: symbols after the packed ones are not read. -/
theorem test_desymbolize : nextIs (exec .desymbolize
    { block with payloadLen := 1, symLen := 6, memS := holding [3, 3, 3, 3, 1, 2] })
    (fun t => t.err == 0 && t.memB == holding [0xFF] && t.symLen == 6 && t.payloadLen == 1) = true := by decide +kernel

/-- V-C17: TRUNCATED_STREAM is checked before B_CAP. -/
theorem test_desymbolize_truncated : nextIs (exec .desymbolize
    { State.resetWith ⟨256, 64, 1024, 256⟩ with payloadLen := 65, symLen := 8 }) (fun t => t.err == 3) = true := by
  decide +kernel

/-- V-W2: a partial pixel. -/
theorem test_embed : nextIs (exec .embed
    { block with pixelCount := 2, symLen := 6, memP := plain 2 0xAA, memS := holding [3, 0, 1, 2, 1, 3] })
    (fun t => t.err == 0 && t.memP == holding [0xAB, 0xA8, 0xA9, 0xAA, 0xA9, 0xAB, 0xAA, 0xAA]) = true := by decide +kernel

/-- V-W8. -/
theorem test_embed_overrun : nextIs (exec .embed { block with symLen := 1, memS := holding [3] })
    (fun t => t.err == 7 && t.memP == []) = true := by decide +kernel

/-- V-R1. -/
theorem test_extractSymbols : nextIs (exec .extractSymbols
    { block with pixelCount := 1, memP := holding [0x10, 0x21, 0x33, 0x42] })
    (fun t => t.err == 0 && t.memS == holding [0, 1, 3, 2] && t.symLen == 4) = true := by decide +kernel

/-- V-R4: S_CAP = 8 and 12 symbols. -/
theorem test_extractSymbols_overflow : nextIs (exec .extractSymbols
    { State.resetWith ⟨256, 256, 8, 256⟩ with pixelCount := 3 }) (fun t => t.err == 6 && t.symLen == 0) = true := by
  decide +kernel

/-- The start of V-R7. -/
def oddHeader : State := { block with pixelCount := 130, memP := holding (List.replicate 16 3 ++ List.replicate 504 0) }

/-- V-R7: no plausibility check of the size. -/
theorem test_readHeader : nextIs (exec .readHeader oddHeader)
    (fun t => t.err == 0 && t.hdrSize == 0xFFFFFFFF && t.hdrNameLen == 0 && t.memH == holding (List.replicate 4 0xFF ++
      List.replicate 124 0)) = true := by decide +kernel

/-- V-R5. -/
theorem test_readHeader_invalid : nextIs (exec .readHeader { block with pixelCount := 127, memP := plain 127 0 })
    (fun t => t.err == 2 && t.memH == []) = true := by decide +kernel

/-- V-R9. -/
theorem test_readPayload : nextIs (exec .readPayload
    { block with pixelCount := 131, hdrSize := 3, memP := carrying 128 0x80 [0x48, 0x69, 0x21] })
    (fun t => t.err == 0 && t.memB == holding [0x48, 0x69, 0x21] && t.payloadLen == 3) = true := by decide +kernel

/-- V-R12. -/
theorem test_readPayload_truncated : nextIs (exec .readPayload { block with pixelCount := 50, hdrSize := 1 })
    (fun t => t.err == 3) = true := by decide +kernel

/-- The state before the first INJECT of Program 1 of 95_test_vectors.md. -/
def beforeInject : State :=
  { block with
    pixelCount := 131, payloadLen := 3, nameLen := 5, memP := plain 131 0x80, memB := holding [0x48, 0x69, 0x21]
    memN := holding aTxt }

/-- Program 1: the first INJECT. -/
theorem test_inject : nextIs (exec .inject beforeInject)
    (fun t => t.err == 0 && t.memH == holding (aTxtHeader 3) && t.memP.readBlock 0 4 == some [0x83, 0x80, 0x80, 0x80] &&
      t.memP.readBlock 16 4 == some [0x81, 0x80, 0x82, 0x81] &&
      t.memP.readBlock 512 12 == some [0x80, 0x82, 0x80, 0x81, 0x81, 0x82, 0x82, 0x81, 0x81, 0x80, 0x82, 0x80]) = true := by
  decide +kernel

/-- Program 1: the second INJECT, one byte too many. -/
theorem test_inject_tooLarge : nextIs (exec .inject { beforeInject with payloadLen := 4 })
    (fun t => t == { beforeInject with payloadLen := 4, err := 1 }) = true := by decide +kernel

/-- Program 1: EXTRACT. -/
theorem test_extract : nextIs (exec .extract
    { block with pixelCount := 131, memP := carrying 0 0x80 (aTxtHeader 3 ++ [0x48, 0x69, 0x21]), memB := holding [0, 0, 0] })
    (fun t => t.err == 0 && t.memB == holding [0x48, 0x69, 0x21] && t.payloadLen == 3 && t.hdrSize == 3 &&
      t.hdrNameLen == 5 && t.memH == holding (aTxtHeader 3)) = true := by decide +kernel

/-- V-H8: the header does not fit. -/
theorem test_extract_invalid : nextIs (exec .extract { block with pixelCount := 100 })
    (fun t => t == { block with pixelCount := 100, err := 2 }) = true := by decide +kernel

/-! Host steps (95_test_vectors.md §2.8) -/

/-- V-F1. -/
theorem test_fault : exec .readHeader { block with pixelCount := 128 } = .fault .unwrittenRead := by rfl

/-- V-F2. -/
theorem test_host_fault : step { block with host := [.memRead .b 0] } = .fault .unwrittenRead := by rfl

/-- V-F3 and V-F4. -/
theorem test_host_refused : step { block with host := [.memRead .h 128] } = .refused .indexOutOfRange ∧
    step { block with host := [.regRead 0x04 2] } = .refused .registerAccess := ⟨rfl, rfl⟩

/-- V-F5, the last read: a reserved offset. -/
theorem test_host_reserved : step { block with host := [.regRead 0x40 4] } = .next { block with replies := [.word 0] } := by
  rfl

/-- The host writes 0xFF to a symbol and the symbol 3 is kept (20_memory.md R52). -/
theorem test_host_symbol : step { block with host := [.memWrite .s 2 0xFF] } = .next { block with memS := [(2, 3)] } := by rfl

/-- 10_state.md R22: a read of CMD after an illegal word gives the word; STATUS.ERR is 5. -/
theorem test_illegal_word : step { block with host := [.regWrite 0 4 0x14] } = .next { block with cmd := 0x14, err := 5 } := by
  rfl

/-! Witnesses: for each obligation with hypotheses a state and operands that meet them, clause by clause, at the boundaries -/

theorem nextIs_iff {r : Result} {check : State → Bool} : nextIs r check = true ↔ ∃ t, r = .next t ∧ check t = true := by
  cases r <;> simp [nextIs]

theorem read_holding {α : Type} (vs : List α) (k : Nat) : (holding vs).read k = vs[k]? := by
  rw [holding, read_cells]
  by_cases h : k < vs.length <;> simp [h]

theorem written_holding {α : Type} (vs : List α) {n : Nat} (h : n ≤ vs.length) : (holding vs).written 0 n := by
  intro k hk
  rw [Nat.zero_add, read_holding, List.getElem?_eq_getElem (by omega)]
  rfl

theorem written_plain (n : Nat) (c : Byte) {m : Nat} (h : m ≤ 4 * n) : (plain n c).written 0 m :=
  written_holding _ (by simpa using h)

theorem witness_IllegalWordsOnlySetErr : ∀ w, w = 0xA#32 ∨ w = 0xF#32 ∨ w = 0x10#32 ∨ w = 0x13#32 ∨ w = 0x20#32 ∨ w = 0xFFFFFFFF#32 →
    ({ block with host := [.regWrite 0x00 4 w] } : State).busy = false ∧ ∀ i, (i, w) ∉ opcodeMap := by
  rintro w (rfl | rfl | rfl | rfl | rfl | rfl) <;> exact ⟨rfl, fun i => by cases i <;> decide⟩

theorem witness_StepRunsTheDecodedCommand :
    ({ block with host := [.regWrite 0x00 4 0x12] } : State).busy = false ∧ decode 0x12 = .ok .symbolizeH := by decide

theorem witness_IdleBlockKeepsItsState : block.host = [] := rfl

theorem witness_HostReadsARegister : block.busy = false ∧ (0x00, 0) ∈ registerMap block ∧ (0x20, 0xFFFFFF80) ∈ registerMap block ∧
    (0x34, 256) ∈ registerMap block ∧ (0x04, 7) ∈ registerMap { block with err := 7 } := by decide

/-- Every register write and every other host step below meets the hypotheses that the list begins with it and BUSY = 0. -/
theorem witness_HostWritesARegister : ∀ o, o ∈ [0x04, 0x08, 0x0C, 0x10, 0x14, 0x18, 0x1C, 0x34] →
    ({ block with host := [.regWrite o 4 5] } : State).busy = false ∧
    ({ block with host := [.regWrite o 4 5] } : State).host = [.regWrite o 4 5] := fun _ _ => ⟨rfl, rfl⟩

theorem witness_ReservedOffsetsAndBadAccesses : block.busy = false ∧
    (∀ o, o = 0x38 ∨ o = 0xFC → 0x38 ≤ o ∧ o ≤ 0xFC ∧ o % 4 = 0 ∧ ({ block with host := [.regRead o 4] } : State).busy = false) ∧
    (0xFC < 0x100 ∨ 0x100 % 4 ≠ 0 ∨ 4 ≠ 4) ∧ (0xFC < 0x02 ∨ 0x02 % 4 ≠ 0 ∨ 4 ≠ 4) ∧ (0xFC < 0x00 ∨ 0x00 % 4 ≠ 0 ∨ 8 ≠ 4) :=
  ⟨rfl, by rintro o (rfl | rfl) <;> exact ⟨by decide, by decide, rfl, rfl⟩, by decide, by decide, by decide⟩

theorem witness_OutOfRangeAccessesAreRefused :
    ({ block with host := [.memRead .pb 1024] } : State).busy = false ∧ 4 * block.caps.pCap.toNat ≤ 1024 ∧
    block.caps.bCap.toNat ≤ 256 ∧ block.caps.nCap.toNat ≤ 256 ∧ block.caps.sCap.toNat ≤ 1024 ∧ 0xFC < 0xFD := by decide

theorem witness_HostViewOfSymbolMemory :
    ({ block with memS := [(1023, 2)], host := [.memRead .s 1023] } : State).busy = false ∧ 1023 < block.caps.sCap.toNat ∧
    Memory.read [(1023, 2#2)] 1023 = some 2#2 := by decide

theorem witness_HostWriteIsReadBack : ∀ sp, sp ≠ .s → block.busy = false ∧ spaceLength block.caps sp - 1 < spaceLength block.caps sp := by
  intro sp _
  cases sp <;> decide

/-- The last element of each space, unwritten and written. -/
theorem witness_HostReadOfAnElement : block.busy = false ∧
    (∀ sp, spaceLength block.caps sp - 1 < spaceLength block.caps sp ∧
      elementAt block sp (spaceLength block.caps sp - 1) = none) ∧
    elementAt { block with memP := [(1023, 7)] } .pb 1023 = some 7 ∧ elementAt { block with memB := [(255, 7)] } .b 255 = some 7 ∧
    elementAt { block with memH := [(127, 7)] } .h 127 = some 7 ∧ elementAt { block with memN := [(255, 7)] } .n 255 = some 7 ∧
    elementAt { block with memS := [(1023, 3)] } .s 1023 = some 3 :=
  ⟨rfl, fun sp => by cases sp <;> exact ⟨by decide, rfl⟩, rfl, rfl, rfl, rfl, rfl⟩

theorem witness_BusyBlockAdmitsOnlyStatusReads :
    ({ block with busy := true, host := [.regRead 0x04 4] } : State).busy = true ∧ (0x04 ≠ 0x04 ∨ 2 ≠ 4) ∧
    (0x08 ≠ 0x04 ∨ 4 ≠ 4) := by decide

theorem witness_ResetRegisterValues : (0x20, 0xFFFFFF80#32) ∈ resetTable ∧ (0x34, Config.nCap) ∈ resetTable ∧
    (0x38 ≤ 0xFC ∧ 0xFC ≤ 0xFC ∧ 0xFC % 4 = 0) := by simp [resetTable]

theorem witness_ResetMemoriesHoldNothing : 127 < spaceLength ⟨0, 0, 0, 124⟩ .h ∧ 123 < spaceLength ⟨0, 0, 0, 124⟩ .n := by decide

theorem witness_PlatformResetGivesTheResetState :
    ({ block with err := 3, host := [.platformReset] } : State).host = [.platformReset] := rfl

/-- A state with a written memory and an error meets the invariant, and its step answers a next state. -/
theorem witness_StepKeepsTheInvariant :
    ({ beforeInject with err := 7, memP := holding [1, 2], host := [.memWrite .pb 1023 9] } : State).Inv ∧
    ∃ t, step { beforeInject with err := 7, memP := holding [1, 2], host := [.memWrite .pb 1023 9] } = .next t := by
  refine ⟨⟨⟨?_, ?_, ?_, ?_, ?_, ?_, ?_, ?_, ?_, ?_⟩, ⟨?_, ?_, ?_, ?_, ?_⟩⟩, _, rfl⟩ <;> decide

theorem witness_StepKeepsTheCapacities : ∃ t, step { block with host := [.platformReset] } = .next t := ⟨_, rfl⟩

theorem witness_OnlyCommandsWriteErr :
    (∃ t, step { block with err := 3, host := [.regWrite 0x08 4 5] } = .next t) ∧
    (∀ w, HostStep.regWrite 0x08 4 5 ≠ .regWrite 0x00 4 w) := ⟨⟨_, rfl⟩, by simp⟩

theorem written_none {α : Type} (m : Memory α) (a : Nat) : m.written a 0 := fun _ h => absurd h (Nat.not_lt_zero _)

/-- A name of 5 bytes, one of 200 of which 124 are read, and none. -/
theorem witness_FormatHeaderBuildsTheHeader :
    ({ block with nameLen := 5, memN := holding aTxt } : State).memN.written 0 (min (5#32).toNat 124) ∧
    ({ block with nameLen := 200, memN := holding (List.replicate 124 1) } : State).memN.written 0 (min (200#32).toNat 124) ∧
    block.memN.written 0 (min block.nameLen.toNat 124) :=
  ⟨written_holding _ (by decide), written_holding _ (by simp), written_none _ 0⟩

/-- The error clauses one above B_CAP and one byte above S_CAP; the success clause of SYMBOLIZE and SYMBOLIZE.H where the
symbols just fit. -/
theorem witness_SymbolizeSerializesBytes :
    (∃ s : State, s.caps.bCap.toNat < s.payloadLen.toNat) ∧
    (∃ s : State, s.payloadLen.toNat ≤ s.caps.bCap.toNat ∧ s.caps.sCap.toNat < 4 * (0 + s.payloadLen.toNat)) ∧
    (∃ s : State, s.payloadLen.toNat ≤ s.caps.bCap.toNat ∧ s.caps.sCap.toNat < 4 * (128 + s.payloadLen.toNat)) ∧
    (∃ s : State, s.payloadLen.toNat ≤ s.caps.bCap.toNat ∧ 4 * (0 + s.payloadLen.toNat) ≤ s.caps.sCap.toNat ∧
      s.memH.written 0 0 ∧ s.memB.written 0 s.payloadLen.toNat) ∧
    (∃ s : State, s.payloadLen.toNat ≤ s.caps.bCap.toNat ∧ 4 * (128 + s.payloadLen.toNat) ≤ s.caps.sCap.toNat ∧
      s.memH.written 0 128 ∧ s.memB.written 0 s.payloadLen.toNat) :=
  ⟨⟨{ block with payloadLen := 257 }, by decide⟩,
    ⟨{ State.resetWith ⟨256, 256, 16, 256⟩ with payloadLen := 5 }, by decide⟩,
    ⟨{ State.resetWith ⟨256, 256, 515, 256⟩ with payloadLen := 1 }, by decide⟩,
    ⟨{ State.resetWith ⟨256, 256, 16, 256⟩ with payloadLen := 4, memB := holding [1, 2, 3, 4] }, by decide, by decide,
      written_none _ 0, written_holding _ (by decide)⟩,
    ⟨{ State.resetWith ⟨256, 256, 512, 256⟩ with memH := plain 32 0 }, by decide, by decide, written_plain 32 0 (by decide),
      written_none _ 0⟩⟩

/-- V-C14, V-C11, V-C16 and V-C10. -/
theorem witness_DesymbolizeReassemblesBytes :
    (∃ s : State, s.caps.sCap.toNat < s.symLen.toNat) ∧
    (∃ s : State, s.symLen.toNat ≤ s.caps.sCap.toNat ∧ s.symLen.toNat < 4 * s.payloadLen.toNat) ∧
    (∃ s : State, s.symLen.toNat ≤ s.caps.sCap.toNat ∧ 4 * s.payloadLen.toNat ≤ s.symLen.toNat ∧
      s.caps.bCap.toNat < s.payloadLen.toNat) ∧
    (∃ s : State, s.symLen.toNat ≤ s.caps.sCap.toNat ∧ 4 * s.payloadLen.toNat ≤ s.symLen.toNat ∧
      s.payloadLen.toNat ≤ s.caps.bCap.toNat ∧ s.memS.written 0 (4 * s.payloadLen.toNat)) :=
  ⟨⟨{ block with symLen := 1025 }, by decide⟩, ⟨{ block with symLen := 4, payloadLen := 2 }, by decide⟩,
    ⟨{ State.resetWith ⟨256, 64, 1024, 256⟩ with symLen := 1024, payloadLen := 65 }, by decide⟩,
    ⟨{ block with symLen := 4, payloadLen := 1, memS := holding [0, 1, 3, 2] }, by decide, by decide, by decide,
      written_holding _ (by decide)⟩⟩

/-- V-W6, V-W7, V-W3 and V-W4. -/
theorem witness_EmbedWritesSymbolsIntoLowBits :
    (∃ s : State, s.caps.pCap.toNat < s.pixelCount.toNat) ∧
    (∃ s : State, s.pixelCount.toNat ≤ s.caps.pCap.toNat ∧ s.caps.sCap.toNat < s.symLen.toNat) ∧
    (∃ s : State, s.pixelCount.toNat ≤ s.caps.pCap.toNat ∧ s.symLen.toNat ≤ s.caps.sCap.toNat ∧
      4 * s.pixelCount.toNat < s.symLen.toNat) ∧
    (∃ s : State, s.pixelCount.toNat ≤ s.caps.pCap.toNat ∧ s.symLen.toNat ≤ s.caps.sCap.toNat ∧
      s.symLen.toNat ≤ 4 * s.pixelCount.toNat ∧ s.memP.written 0 s.symLen.toNat ∧ s.memS.written 0 s.symLen.toNat) :=
  ⟨⟨{ block with pixelCount := 257 }, by decide⟩, ⟨{ block with pixelCount := 2, symLen := 1025 }, by decide⟩,
    ⟨{ block with pixelCount := 2, symLen := 9 }, by decide⟩,
    ⟨{ block with pixelCount := 2, symLen := 8, memP := plain 2 0xAA, memS := holding [3, 0, 1, 2, 1, 3, 0, 0] },
      by decide, by decide, by decide, written_plain 2 _ (by decide), written_holding _ (by decide)⟩⟩

/-- V-R3, V-R4, and every channel of P at P_CAP pixels. -/
theorem witness_ExtractSymbolsReadsLowBits :
    (∃ s : State, s.caps.pCap.toNat < s.pixelCount.toNat) ∧
    (∃ s : State, s.pixelCount.toNat ≤ s.caps.pCap.toNat ∧ s.caps.sCap.toNat < 4 * s.pixelCount.toNat) ∧
    (∃ s : State, s.pixelCount.toNat ≤ s.caps.pCap.toNat ∧ 4 * s.pixelCount.toNat ≤ s.caps.sCap.toNat ∧
      s.memP.written 0 (4 * s.pixelCount.toNat)) :=
  ⟨⟨{ block with pixelCount := 257 }, by decide⟩,
    ⟨{ State.resetWith ⟨256, 256, 8, 256⟩ with pixelCount := 3 }, by decide⟩,
    ⟨{ block with pixelCount := 256, memP := plain 256 0x80 }, by decide, by decide, written_plain 256 _ (Nat.le_refl _)⟩⟩

/-- PIXEL_COUNT = P_CAP + 1, 127 (V-R5) and 128. -/
theorem witness_ReadHeaderRecoversTheHeader :
    (∃ s : State, s.caps.pCap.toNat < s.pixelCount.toNat) ∧
    (∃ s : State, s.pixelCount.toNat ≤ s.caps.pCap.toNat ∧ s.pixelCount.toNat < 128) ∧
    (∃ s : State, s.pixelCount.toNat ≤ s.caps.pCap.toNat ∧ 128 ≤ s.pixelCount.toNat ∧ s.memP.written 0 512) :=
  ⟨⟨{ block with pixelCount := 257 }, by decide⟩, ⟨{ block with pixelCount := 127 }, by decide⟩,
    ⟨{ block with pixelCount := 128, memP := plain 128 0x80 }, by decide, by decide, written_plain 128 _ (by decide)⟩⟩

/-- V-R3's count, V-R12, V-R13, V-R9, and V-R11 where fewer than 128 pixels hold no bytes. -/
theorem witness_ReadPayloadRecoversThePayload :
    (∃ s : State, s.caps.pCap.toNat < s.pixelCount.toNat) ∧
    (∃ s : State, s.pixelCount.toNat ≤ s.caps.pCap.toNat ∧ max ((s.pixelCount.toNat : Int) - 128) 0 < (s.hdrSize.toNat : Int)) ∧
    (∃ s : State, s.pixelCount.toNat ≤ s.caps.pCap.toNat ∧ (s.hdrSize.toNat : Int) ≤ max ((s.pixelCount.toNat : Int) - 128) 0 ∧
      s.caps.bCap.toNat < s.hdrSize.toNat) ∧
    (∃ s : State, s.pixelCount.toNat ≤ s.caps.pCap.toNat ∧ (s.hdrSize.toNat : Int) ≤ max ((s.pixelCount.toNat : Int) - 128) 0 ∧
      s.hdrSize.toNat ≤ s.caps.bCap.toNat ∧ s.memP.written 512 (4 * s.hdrSize.toNat) ∧ s.hdrSize = 3) ∧
    (∃ s : State, s.pixelCount.toNat ≤ s.caps.pCap.toNat ∧ (s.hdrSize.toNat : Int) ≤ max ((s.pixelCount.toNat : Int) - 128) 0 ∧
      s.hdrSize.toNat ≤ s.caps.bCap.toNat ∧ s.memP.written 512 (4 * s.hdrSize.toNat) ∧ s.pixelCount = 50) :=
  ⟨⟨{ block with pixelCount := 257 }, by decide⟩, ⟨{ block with pixelCount := 50, hdrSize := 1 }, by decide⟩,
    ⟨{ State.resetWith ⟨256, 64, 1024, 256⟩ with pixelCount := 256, hdrSize := 65 }, by decide⟩,
    ⟨{ block with pixelCount := 131, hdrSize := 3, memP := carrying 128 0x80 [0x48, 0x69, 0x21] }, by decide, by decide,
      by decide, by decide, rfl⟩,
    ⟨{ block with pixelCount := 50 }, by decide, by decide, by decide, written_none _ 512, rfl⟩⟩

/-- Program 1: the payload just fits. -/
theorem inject_inputs : injectInputsWritten beforeInject :=
  ⟨written_holding _ (by decide), written_holding _ (by decide), written_plain 131 0x80 (by decide)⟩

/-- V-H6, V-H7, Program 1's second INJECT and its first. -/
theorem witness_InjectEncodesHeaderAndPayload :
    (∃ s : State, s.caps.pCap.toNat < s.pixelCount.toNat) ∧
    (∃ s : State, s.pixelCount.toNat ≤ s.caps.pCap.toNat ∧ s.caps.bCap.toNat < s.payloadLen.toNat) ∧
    (∃ s : State, s.pixelCount.toNat ≤ s.caps.pCap.toNat ∧ s.payloadLen.toNat ≤ s.caps.bCap.toNat ∧
      (s.pixelCount.toNat : Int) - 128 < (s.payloadLen.toNat : Int)) ∧
    (∃ s : State, s.pixelCount.toNat ≤ s.caps.pCap.toNat ∧ s.payloadLen.toNat ≤ s.caps.bCap.toNat ∧
      (s.payloadLen.toNat : Int) ≤ (s.pixelCount.toNat : Int) - 128 ∧ injectInputsWritten s) :=
  ⟨⟨{ block with pixelCount := 257 }, by decide⟩, ⟨{ block with pixelCount := 200, payloadLen := 257 }, by decide⟩,
    ⟨{ beforeInject with payloadLen := 4 }, by decide⟩, ⟨beforeInject, by decide, by decide, by decide, inject_inputs⟩⟩

theorem carried_plain (n : Nat) (c : Byte) (j : Nat) (h : j < n) : carried (plain n c) j =
    some ((c &&& 3) + ((c &&& 3) <<< 2) + ((c &&& 3) <<< 4) + ((c &&& 3) <<< 6)) := by
  have g : ∀ k, k < 4 * n → (plain n c).read k = some c := by
    intro k hk
    rw [plain, read_holding, List.getElem?_replicate, if_pos hk]
  rw [carried, g _ (by omega), g _ (by omega), g _ (by omega), g _ (by omega)]

theorem carried_size (n : Nat) (h : 4 ≤ n) : (∀ i, i < 4 → carried (plain n 0x80) i = some ((0#32).extractLsb' (8 * i) 8)) ∧
    (∀ i, i < 4 → carried (plain n 0x03) i = some ((0xFFFFFFFF#32).extractLsb' (8 * i) 8)) ∧
    (∀ i, i < 4 → carried (plain n 0x01) i = some ((0x55555555#32).extractLsb' (8 * i) 8)) := by
  refine ⟨?_, ?_, ?_⟩ <;> intro i hi <;> rw [carried_plain _ _ _ (by omega)] <;> revert i <;> decide

/-- V-H6's count, V-H8, and 128 pixels that carry the size 0xFFFFFFFF (too long for the pixels) or 0 (it fits). For the clause of
a size that fits the pixels but not B: 0x55555555 with as many pixels and B_CAP one byte less. -/
theorem witness_ExtractDecodesHeaderAndPayload :
    (∃ s : State, s.caps.pCap.toNat < s.pixelCount.toNat) ∧
    (∃ s : State, s.pixelCount.toNat ≤ s.caps.pCap.toNat ∧ s.pixelCount.toNat < 128) ∧
    (∃ (s : State) (size : Word), s.pixelCount.toNat ≤ s.caps.pCap.toNat ∧ 128 ≤ s.pixelCount.toNat ∧ s.memP.written 0 512 ∧
      (∀ i, i < 4 → carried s.memP i = some (size.extractLsb' (8 * i) 8)) ∧
      (s.pixelCount.toNat : Int) - 128 < (size.toNat : Int)) ∧
    (∃ (s : State) (size : Word), s.pixelCount.toNat ≤ s.caps.pCap.toNat ∧ 128 ≤ s.pixelCount.toNat ∧ s.memP.written 0 512 ∧
      (∀ i, i < 4 → carried s.memP i = some (size.extractLsb' (8 * i) 8)) ∧
      (size.toNat : Int) ≤ (s.pixelCount.toNat : Int) - 128 ∧ s.caps.bCap.toNat < size.toNat) ∧
    (∃ (s : State) (size : Word), s.pixelCount.toNat ≤ s.caps.pCap.toNat ∧ 128 ≤ s.pixelCount.toNat ∧ s.memP.written 0 512 ∧
      (∀ i, i < 4 → carried s.memP i = some (size.extractLsb' (8 * i) 8)) ∧
      (size.toNat : Int) ≤ (s.pixelCount.toNat : Int) - 128 ∧ size.toNat ≤ s.caps.bCap.toNat ∧
      s.memP.written 512 (4 * size.toNat)) := by
  have h := carried_size 128 (by decide)
  refine ⟨⟨{ block with pixelCount := 257 }, by decide⟩, ⟨{ block with pixelCount := 100 }, by decide⟩,
    ⟨{ block with pixelCount := 128, memP := plain 128 0x03 }, 0xFFFFFFFF, by decide, by decide,
      written_plain 128 _ (by decide), h.2.1, by decide⟩,
    ⟨{ State.resetWith ⟨0xFFFFFFFF, 0x55555554, 1024, 256⟩ with pixelCount := 0x555555D5, memP := plain 128 0x01 }, 0x55555555,
      by decide, by decide, written_plain 128 _ (by decide), h.2.2, by decide, by decide⟩,
    ⟨{ block with pixelCount := 128, memP := plain 128 0x80 }, 0, by decide, by decide, written_plain 128 _ (by decide), h.1,
      by decide, by decide, written_none _ 512⟩⟩

/-- An error of each code a command can raise. -/
theorem witness_ErrorsChangeOnlyErr : ∀ c : Instr × State, c ∈ [(.inject, { beforeInject with payloadLen := 4 }),
      (.readHeader, { block with pixelCount := 127 }), (.readPayload, { block with hdrSize := 1 }),
      (.symbolize, { block with payloadLen := 257 }), (.embed, { block with symLen := 1 })] →
    nextIs (exec c.1 c.2) (fun t => t.err != 0) = true := by decide

theorem witness_ErrorCodesOfEachCommand : ∃ t, exec .nop block = .next t := ⟨_, rfl⟩

/-- INJECT and EXTRACT answer a next state with STATUS.ERR = 0 (95_test_vectors.md, Program 1). -/
theorem injected : ∃ t, exec .inject beforeInject = .next t ∧ t.err = 0 := by
  obtain ⟨t, h, hc⟩ := nextIs_iff.1 test_inject
  exact ⟨t, h, by simp only [Bool.and_eq_true, beq_iff_eq] at hc; exact hc.1.1.1.1⟩

theorem extracted : ∃ t, exec .extract { block with
    pixelCount := 131, memP := carrying 0 0x80 (aTxtHeader 3 ++ [0x48, 0x69, 0x21]), memB := holding [0, 0, 0] } = .next t ∧
    t.err = 0 := by
  obtain ⟨t, h, hc⟩ := nextIs_iff.1 test_extract
  exact ⟨t, h, by simp only [Bool.and_eq_true, beq_iff_eq] at hc; exact hc.1.1.1.1.1⟩

theorem witness_CommandsKeepOtherRegisters : ∃ t, exec .inject beforeInject = .next t := ⟨_, injected.choose_spec.1⟩

theorem witness_CommandsKeepOtherMemories : (∃ t, exec .inject beforeInject = .next t) ∧
    Instr.inject ≠ .desymbolize ∧ Instr.inject ≠ .symbolize := ⟨⟨_, injected.choose_spec.1⟩, by decide, by decide⟩

theorem witness_UpperSixBitsAreKept : ∃ t, exec .inject beforeInject = .next t := ⟨_, injected.choose_spec.1⟩

theorem witness_RetryGivesTheSameError : nextIs (exec .inject { block with pixelCount := 100 }) (fun t => t.err == 1) = true := by
  decide

theorem witness_EmbedTwiceIsEmbedOnce : ∃ t, exec .embed
    { block with pixelCount := 2, symLen := 6, memP := plain 2 0xAA, memS := holding [3, 0, 1, 2, 1, 3] } = .next t := by
  obtain ⟨t, h, -⟩ := nextIs_iff.1 test_embed
  exact ⟨t, h⟩

theorem witness_InjectAndExtractIgnoreSymbols : (∃ t, exec .inject beforeInject = .next t) ∧ ∃ t, exec .extract { block with
    pixelCount := 131, memP := carrying 0 0x80 (aTxtHeader 3 ++ [0x48, 0x69, 0x21]), memB := holding [0, 0, 0] } = .next t :=
  ⟨⟨_, injected.choose_spec.1⟩, _, extracted.choose_spec.1⟩

theorem witness_ExtractDependsOnlyOnItsPixels : ∃ t, exec .extract { block with
    pixelCount := 131, memP := carrying 0 0x80 (aTxtHeader 3 ++ [0x48, 0x69, 0x21]), memB := holding [0, 0, 0] } = .next t ∧
    t.err = 0 := extracted

theorem witness_FormattedNameIsRecovered : ([] : List Byte).length ≤ 124 ∧ (List.replicate 124 0x41#8).length ≤ 124 := by simp

/-- SYMBOLIZE and SYMBOLIZE.H succeed, and 128 + L fits B_CAP = 256. -/
theorem witness_DesymbolizeInvertsSymbolize :
    (∃ t, exec .symbolize { block with payloadLen := 1, memB := holding [0xB4] } = .next t ∧ t.err = 0) ∧
    (∃ t, exec .symbolizeH { block with payloadLen := 1, memH := holding (1 :: List.replicate 127 0), memB := holding [0xB4] } =
      .next t ∧ t.err = 0) ∧ (129#32).toNat = 128 + (1#32).toNat ∧ (129#32).toNat ≤ (256#32).toNat := by
  refine ⟨⟨_, rfl, rfl⟩, ?_, by decide, by decide⟩
  obtain ⟨t, h, hc⟩ := nextIs_iff.1 test_symbolizeH
  exact ⟨t, h, by simp only [Bool.and_eq_true, beq_iff_eq] at hc; exact hc.1.1.1⟩

/-- EXTRACT_SYMBOLS succeeds on 129 pixels, HDR_SIZE = 1 and 129 bytes fit the pixels and B. -/
theorem witness_ReadersEqualTheSymbolComposition :
    (∃ t, exec .extractSymbols { block with pixelCount := 129, hdrSize := 1, memP := plain 129 0x81 } = .next t ∧ t.err = 0) ∧
    (129#32).toNat = 128 + (1#32).toNat ∧ (129#32).toNat ≤ (256#32).toNat := by
  refine ⟨?_, by decide, by decide⟩
  obtain ⟨cs, hc⟩ := gather_of_written (written_plain 129 0x81 (m := 4 * 129) (Nat.le_refl _))
  have h1 : (129#32).toNat ≤ (256#32).toNat := by decide
  have h2 : 4 * (129#32).toNat ≤ (1024#32).toNat := by decide
  generalize plain 129 0x81 = p at hc ⊢
  exact ⟨_, exec_of_succeeded (i := .extractSymbols)
    (s := { block with pixelCount := 129, hdrSize := 1, memP := p }) ⟨h1, h2, cs, hc, rfl⟩, rfl⟩

theorem witness_CompositesEqualPrimitiveSequences :
    (∃ t, exec .inject beforeInject = .next t ∧ t.err = 0) ∧
    4 * (128 + beforeInject.payloadLen.toNat) ≤ beforeInject.caps.sCap.toNat ∧ ∃ t, exec .extract { block with
    pixelCount := 131, memP := carrying 0 0x80 (aTxtHeader 3 ++ [0x48, 0x69, 0x21]), memB := holding [0, 0, 0] } = .next t ∧
    t.err = 0 := ⟨injected, by decide, extracted⟩

/-- Program 1: the payload just fits; the host overwrites B[0] and B[255] in between. -/
theorem witness_InjectThenExtractRecoversAll :
    ({ beforeInject with host := .regWrite 0x00 4 0x00000008 :: (writesToB [(0, 0), (255, 7)] ++ [.regWrite 0x00 4 0x00000009]) }
      : State).busy = false ∧ (∀ c, c ∈ [(0, 0#8), (255, 7#8)] → c.1 < beforeInject.caps.bCap.toNat) ∧
    beforeInject.pixelCount.toNat ≤ beforeInject.caps.pCap.toNat ∧ beforeInject.payloadLen.toNat ≤ beforeInject.caps.bCap.toNat ∧
    (beforeInject.payloadLen.toNat : Int) ≤ (beforeInject.pixelCount.toNat : Int) - 128 ∧ injectInputsWritten beforeInject ∧
    beforeInject.nameLen.toNat ≤ 124 ∧ beforeInject.memN.read (beforeInject.nameLen.toNat - 1) ≠ some 0 :=
  ⟨by decide, by decide, by decide, by decide, by decide, inject_inputs, by decide, by decide⟩

theorem witness_CapacityBoundaryOfInject : beforeInject.pixelCount.toNat ≤ beforeInject.caps.pCap.toNat ∧
    128 ≤ beforeInject.pixelCount.toNat ∧ beforeInject.payloadLen.toNat = beforeInject.pixelCount.toNat - 128 ∧
    injectInputsWritten beforeInject ∧ (4#32).toNat = beforeInject.pixelCount.toNat - 128 + 1 ∧
    (4#32).toNat ≤ beforeInject.caps.bCap.toNat :=
  ⟨by decide, by decide, by decide, inject_inputs, by decide, by decide⟩

/-- READ_HEADER fails (V-R5's count) and the stale HDR_NAME_LEN = 124 stays in H. -/
theorem witness_InfoReportsTheHeaderAndTheCapacity_failed : ∃ s v : State, s.busy = false ∧ exec .readHeader s = .next v ∧
    v.err ≠ 0 ∧ v.hdrNameLen.toNat ≤ 124 ∧ v.memH.written 4 v.hdrNameLen.toNat ∧
    s.host = asmInfo v.hdrNameLen.toNat ++ [] := by
  have hw := written_plain 32 1 (m := 128) (by decide)
  have hn : ((124#32).toNat) = 124 := by decide
  generalize plain 32 1 = h at hw
  refine ⟨{ block with pixelCount := 127, hdrNameLen := 124, memH := h, host := asmInfo 124 ++ [] },
    { block with pixelCount := 127, hdrNameLen := 124, memH := h, host := asmInfo 124 ++ [], err := 2 },
    rfl, rfl, (by decide : (2#4) ≠ 0), (by decide : (124#32).toNat ≤ 124), ?_, ?_⟩
  · intro k hk
    have hk' : k < 124 := hk
    have := hw (4 + k) (by omega)
    rwa [Nat.zero_add] at this
  · exact congrArg (fun k => asmInfo k ++ []) hn.symm

/-- READ_HEADER succeeds on V-R7, and the host's list can be INFO's steps. -/
theorem witness_InfoReportsTheHeaderAndTheCapacity : 
    ∃ v, exec .readHeader { oddHeader with host := asmInfo 0 ++ [] } = .next v ∧ v.busy = false ∧ v.err = 0 ∧
      v.hdrNameLen.toNat = 0 := by
  obtain ⟨t, h, hc⟩ := nextIs_iff.1 test_readHeader
  have hb : oddHeader.busy = false := rfl
  generalize oddHeader = s at h hb ⊢
  simp only [Bool.and_eq_true, beq_iff_eq] at hc
  refine ⟨{ t with host := asmInfo 0 ++ [] }, ?_, ?_, hc.1.1.1, by rw [hc.1.2]; rfl⟩
  · obtain ⟨h1, h2, hdr, hh, rfl⟩ := succeeded_of_err h hc.1.1.1
    exact exec_of_succeeded (i := .readHeader) (s := { s with host := asmInfo 0 ++ [] }) ⟨h1, h2, hdr, hh, rfl⟩
  · rw [(exec_same h).busy, hb]

end Sys2Proof.Tests
end

