-- ==== Sys2Proof/Proofs/Scope.lean ====
section
/-! SUPPORT. Determinism (00_scope.md R19): EXTRACT's outcome and results follow from PIXEL_COUNT, the capacities and the
channels of the valid pixels. -/

namespace Sys2Proof.Machine

/-- The bytes carried by pixels a .. a+c−1 follow from the channels of any n ≥ a+c pixels. -/
theorem gather_pixbyteAt_congr {m m' : Memory Byte} {n a c : Nat}
    (hm : ∀ k, k < 4 * n → m'.read k = m.read k) (hac : a + c ≤ n) :
    gather (pixbyteAt m') a c = gather (pixbyteAt m) a c := by
  refine gather_congr a c fun k hk => ?_
  have hpx : m'.pixel (a + k) = m.pixel (a + k) := Memory.pixel_congr (a + k) fun q hq => hm _ (by omega)
  rw [pixbyteAt, pixbyteAt, hpx]

/-- A block of written values reads the same over any two memories. -/
theorem Memory.read_writeBlock_zero_congr {α : Type} (m m' : Memory α) {vs : List α} {k : Nat} (hk : k < vs.length) :
    (m'.writeBlock 0 vs).read k = (m.writeBlock 0 vs).read k := by
  rw [read_writeBlock_zero, read_writeBlock_zero, if_pos hk, if_pos hk]

/-- The results of EXTRACT agree in two states (43_header_orchestration.md R166): the three registers, the header in H, and
the payload in B up to PAYLOAD_LEN. -/
abbrev SameExtractResults (t' t : State) : Prop :=
  t'.hdrSize = t.hdrSize ∧ t'.hdrNameLen = t.hdrNameLen ∧ t'.payloadLen = t.payloadLen ∧
  (∀ j, j < 128 → t'.memH.read j = t.memH.read j) ∧
  (∀ j, j < t.payloadLen.toNat → t'.memB.read j = t.memB.read j)

variable {s s' t : State}

/-- With the same header read, what EXTRACT leaves on success is matched from every state that agrees on PIXEL_COUNT, the
capacities and the valid pixels. -/
theorem extracted_congr {hdr : List Byte} (hn : s'.pixelCount = s.pixelCount) (hc : s'.caps = s.caps)
    (hP : ∀ k, k < 4 * s.pixelCount.toNat → s'.memP.read k = s.memP.read k) (h128 : 128 ≤ s.pixelCount.toNat)
    (hhdr : gather (pixbyteAt s.memP) 0 128 = some hdr) (h : Extracted s t hdr) :
    ∃ t', Extracted s' t' hdr ∧ t'.err = t.err ∧ SameExtractResults t' t := by
  obtain ⟨hfit, hcap, d, hd, rfl⟩ := h
  have hd' : gather (pixbyteAt s'.memP) 128 (hdrSizeOf hdr).toNat = some d := by
    rw [gather_pixbyteAt_congr hP (by omega), hd]
  refine ⟨_, ⟨hn ▸ hfit, hc ▸ hcap, d, hd', rfl⟩, rfl, rfl, rfl, rfl, fun j hj => ?_, fun j hj => ?_⟩
  · exact Memory.read_writeBlock_zero_congr _ _ (by rwa [gather_length hhdr])
  · exact Memory.read_writeBlock_zero_congr _ _ (by rwa [gather_length hd])

/-- Settles O43: each check of EXTRACT, and each byte it reads, gives the same answer in both states. -/
theorem extractDependsOnlyOnItsPixels : Obligations.ExtractDependsOnlyOnItsPixels := by
  intro s s' t hn hc hP h
  -- An error has no results to compare.
  have error (e : BitVec 4) (he : e ≠ 0) (h' : execExtract s' = .next { s' with err := e }) :
      ∃ t', exec .extract s' = .next t' ∧ t'.err = e ∧ (e = 0 → SameExtractResults t' { s with err := e }) :=
    ⟨_, h', rfl, fun h0 => absurd h0 he⟩
  rcases execExtract_next.1 h with ⟨hp, rfl⟩ | ⟨hp, hs, rfl⟩ | ⟨hp, hs, hdr, hhdr, hrest⟩
  · exact error 6 (by decide) (execExtract_next.2 (.inl ⟨by rwa [hn, hc], rfl⟩))
  · exact error 2 (by decide) (execExtract_next.2 (.inr (.inl ⟨by rwa [hn, hc], by rwa [hn], rfl⟩)))
  have hhdr' : gather (pixbyteAt s'.memP) 0 128 = some hdr := by
    rw [gather_pixbyteAt_congr hP (by omega), hhdr]
  have afterHeader {t' : State} := fun hrest' => (execExtract_next (s := s') (t := t')).2
    (.inr (.inr ⟨by rwa [hn, hc], by rwa [hn], hdr, hhdr', hrest'⟩))
  rcases hrest with ⟨ht, rfl⟩ | ⟨ht, hb, rfl⟩ | hx
  · exact error 3 (by decide) (afterHeader (.inl ⟨by rwa [hn], rfl⟩))
  · exact error 6 (by decide) (afterHeader (.inr (.inl ⟨hn ▸ ht, by rwa [hc], rfl⟩)))
  · obtain ⟨t', hx', herr, hsame⟩ := extracted_congr hn hc hP hs hhdr hx
    exact ⟨t', afterHeader (.inr (.inr hx')), herr, fun _ => hsame⟩

end Sys2Proof.Machine
end

