-- ==== Sys2Proof/Proofs/Registers.lean ====
section
/-! SUPPORT. The registers (10_state.md): what each command leaves alone (R39), that nothing changes the capacities (R33) and
only commands and reset write STATUS.ERR (R24). -/

namespace Sys2Proof.Machine

variable {s t : State} {i : Instr}

/-- The registers that only some commands write, with the commands that write them (10_state.md R39). -/
structure KeepsLengths (i : Instr) (s t : State) : Prop where
  payloadLen : i ≠ .readPayload → i ≠ .extract → t.payloadLen = s.payloadLen
  symLen : i ≠ .symbolize → i ≠ .symbolizeH → i ≠ .extractSymbols → t.symLen = s.symLen
  hdr : i ≠ .readHeader → i ≠ .extract → t.hdrSize = s.hdrSize ∧ t.hdrNameLen = s.hdrNameLen

theorem Raised.keepsLengths (h : Raised s t) : KeepsLengths i s t := by
  obtain ⟨_, _, rfl⟩ := h
  exact ⟨fun _ _ => rfl, fun _ _ _ => rfl, fun _ _ => ⟨rfl, rfl⟩⟩

theorem Succeeded.keepsLengths (h : Succeeded i s t) : KeepsLengths i s t := by
  cases i
  case nop => rw [h]; constructor <;> simp
  case formatHeader => obtain ⟨_, _, rfl⟩ := h; constructor <;> simp
  case symbolize => obtain ⟨_, _, _, _, _, _, rfl⟩ := h; constructor <;> simp
  case symbolizeH => obtain ⟨_, _, _, _, _, _, rfl⟩ := h; constructor <;> simp
  case desymbolize => obtain ⟨_, _, _, _, _, rfl⟩ := h; constructor <;> simp
  case embed => obtain ⟨_, _, _, _, _, rfl⟩ := h; constructor <;> simp
  case extractSymbols => obtain ⟨_, _, _, _, rfl⟩ := h; constructor <;> simp
  case readHeader => obtain ⟨_, _, _, _, rfl⟩ := h; constructor <;> simp
  case readPayload => obtain ⟨_, _, _, _, _, rfl⟩ := h; constructor <;> simp
  case inject => obtain ⟨_, _, _, _, _, _, _, _, _, rfl⟩ := h; constructor <;> simp
  case extract => obtain ⟨_, _, _, _, _, _, _, _, rfl⟩ := h; constructor <;> simp

theorem exec_keepsLengths (h : exec i s = .next t) : KeepsLengths i s t :=
  (exec_next h).elim Raised.keepsLengths Succeeded.keepsLengths

/-- Settles O37: what every command keeps, and the registers the command does not write. -/
theorem commandsKeepOtherRegisters : Obligations.CommandsKeepOtherRegisters := by
  intro i s t h
  have same := exec_same h
  have keeps := exec_keepsLengths h
  exact ⟨same.cmd, same.busy, same.pixelCount, same.nameLen, same.caps, keeps.payloadLen, keeps.symLen, keeps.hdr⟩

/-- Settles O21: a command keeps the capacities, and so does every other thing a step can do. -/
theorem stepKeepsTheCapacities : Obligations.StepKeepsTheCapacities := by
  intro s t h
  cases step_cases h with
  | idle _ ht => rw [ht]
  | command _ _ _ _ _ ht => exact (exec_same ht).caps
  | illegal _ _ _ _ _ ht => rw [ht]
  | register _ _ _ _ _ ht => simp [ht]
  | reserved _ _ _ _ _ ht => rw [ht]
  | answered _ _ _ _ _ ht => rw [ht]
  | stored _ _ _ _ _ _ ht => simp [ht]
  | reset _ _ ht => simp [ht]

/-- Settles O22: of what a step can do, only a write to CMD and a reset touch STATUS.ERR. -/
theorem onlyCommandsWriteErr : Obligations.OnlyCommandsWriteErr := by
  intro s t x rest hx h hreset hcmd
  have other {y : HostStep} {rest' : List HostStep} (hy : s.host = y :: rest') : x = y :=
    (List.cons.inj (hx.symm.trans hy)).1
  cases step_cases h with
  | idle _ ht => rw [ht]
  | command w _ _ hh _ _ => exact absurd (other hh) (hcmd w)
  | illegal w _ _ hh _ _ => exact absurd (other hh) (hcmd w)
  | register _ _ _ _ _ ht => simp [ht]
  | reserved _ _ _ _ _ ht => rw [ht]
  | answered _ _ _ _ _ ht => rw [ht]
  | stored _ _ _ _ _ _ ht => simp [ht]
  | reset _ hh _ => exact absurd (other hh) hreset

end Sys2Proof.Machine
end

