-- ==== Sys2Proof/Proofs/Invariant.lean ====
section
/-! SUPPORT. The invariant: every command and every host interaction keeps it. -/

namespace Sys2Proof.Machine

variable {s t : State} {i : Instr}

/-! Memories -/

/-- A block write from index 0 of no more elements than the space has keeps a memory legal. -/
theorem Memory.legal_writeBlock {α : Type} {m : Memory α} {size : Nat} {vs : List α} (hw : m.wf) (hi : m.within size)
    (hl : vs.length ≤ size) : (m.writeBlock 0 vs).wf ∧ (m.writeBlock 0 vs).within size :=
  ⟨Memory.wf_writeBlock hw 0 vs, Memory.within_writeBlock hi 0 vs (by omega)⟩

theorem Symbolized.memoriesLegal {hp : Bool} (h : Symbolized hp s t) (hs : s.MemoriesLegal) : t.MemoriesLegal := by
  obtain ⟨-, hcap, p, hpre, b, hb, rfl⟩ := h
  have hl : (serialize (p ++ b)).length = 4 * (prefixLength hp + s.payloadLen.toNat) := by
    rw [length_serialize, List.length_append, length_prefixBytes hpre, length_payloadBytes hb]
  have ⟨wfS, inS⟩ := Memory.legal_writeBlock hs.wfS hs.inS (hl.trans_le hcap)
  exact { hs with wfS, inS }

/-- A command that succeeds writes inside the spaces: its checks compare what it writes with the capacities. -/
theorem Succeeded.memoriesLegal (h : Succeeded i s t) (hs : s.MemoriesLegal) : t.MemoriesLegal := by
  cases i
  case nop => rw [h]; exact { hs with }
  case formatHeader =>
    obtain ⟨hdr, hh, rfl⟩ := h
    have ⟨wfH, inH⟩ := Memory.legal_writeBlock hs.wfH hs.inH (length_formattedHeader hh).le
    exact { hs with wfH, inH }
  case symbolize => exact Symbolized.memoriesLegal h hs
  case symbolizeH => exact Symbolized.memoriesLegal h hs
  case desymbolize =>
    obtain ⟨-, -, hcap, d, hd, rfl⟩ := h
    have ⟨wfB, inB⟩ := Memory.legal_writeBlock hs.wfB hs.inB ((gather_length hd).trans_le hcap)
    exact { hs with wfB, inB }
  case embed =>
    obtain ⟨hn, -, hm, cs, hcs, rfl⟩ := h
    have hl : cs.length ≤ 4 * s.caps.pCap.toNat := by rw [gather_length hcs]; omega
    have ⟨wfP, inP⟩ := Memory.legal_writeBlock hs.wfP hs.inP hl
    exact { hs with wfP, inP }
  case extractSymbols =>
    obtain ⟨-, hcap, cs, hcs, rfl⟩ := h
    have hl : (cs.map demuxCh).length = 4 * s.pixelCount.toNat := by rw [List.length_map, gather_length hcs]
    have ⟨wfS, inS⟩ := Memory.legal_writeBlock hs.wfS hs.inS (hl.trans_le hcap)
    exact { hs with wfS, inS }
  case readHeader =>
    obtain ⟨-, -, hdr, hh, rfl⟩ := h
    have ⟨wfH, inH⟩ := Memory.legal_writeBlock hs.wfH hs.inH (gather_length hh).le
    exact { hs with wfH, inH }
  case readPayload =>
    obtain ⟨-, -, hcap, d, hd, rfl⟩ := h
    have ⟨wfB, inB⟩ := Memory.legal_writeBlock hs.wfB hs.inB ((gather_length hd).trans_le hcap)
    exact { hs with wfB, inB }
  case inject =>
    obtain ⟨hn, -, hfit, hdr, hh, b, hb, cs, hcs, rfl⟩ := h
    have hl : cs.length ≤ 4 * s.caps.pCap.toNat := by
      rw [length_muxPixels hcs, List.length_append, length_formattedHeader hh, length_payloadBytes hb]
      omega
    have ⟨wfH, inH⟩ := Memory.legal_writeBlock hs.wfH hs.inH (length_formattedHeader hh).le
    have ⟨wfP, inP⟩ := Memory.legal_writeBlock hs.wfP hs.inP hl
    exact { hs with wfH, inH, wfP, inP }
  case extract =>
    obtain ⟨-, -, hdr, hh, -, hcap, d, hd, rfl⟩ := h
    have ⟨wfH, inH⟩ := Memory.legal_writeBlock hs.wfH hs.inH (gather_length hh).le
    have ⟨wfB, inB⟩ := Memory.legal_writeBlock hs.wfB hs.inB ((gather_length hd).trans_le hcap)
    exact { hs with wfH, inH, wfB, inB }

theorem writeElement_memoriesLegal {sp : Space} {a : Nat} (v : Byte) (ha : a < spaceSize s.caps sp)
    (hs : s.MemoriesLegal) : (writeElement s sp a v).MemoriesLegal := by
  cases sp
  case pb => exact { hs with wfP := Memory.wf_write hs.wfP a v, inP := Memory.within_write hs.inP a v ha }
  case b => exact { hs with wfB := Memory.wf_write hs.wfB a v, inB := Memory.within_write hs.inB a v ha }
  case h => exact { hs with wfH := Memory.wf_write hs.wfH a v, inH := Memory.within_write hs.inH a v ha }
  case n => exact { hs with wfN := Memory.wf_write hs.wfN a v, inN := Memory.within_write hs.inN a v ha }
  case s => exact { hs with wfS := Memory.wf_write hs.wfS a _, inS := Memory.within_write hs.inS a _ ha }

/-! Registers -/

/-- A header's name length is at most 124 (10_state.md R32): the two commands that write HDR_NAME_LEN write a `namelen`. -/
theorem Succeeded.hdrNameLen_le (h : Succeeded i s t) (hs : s.hdrNameLen.toNat ≤ 124) : t.hdrNameLen.toNat ≤ 124 := by
  by_cases hr : i = .readHeader
  · subst hr
    obtain ⟨-, -, hdr, -, rfl⟩ := h
    exact (toNat_namelen hdr).trans_le (namelen_le hdr)
  by_cases hx : i = .extract
  · subst hx
    obtain ⟨-, -, hdr, -, -, -, d, -, rfl⟩ := h
    exact (toNat_namelen hdr).trans_le (namelen_le hdr)
  rwa [(h.keepsLengths.hdr hr hx).2]

theorem Succeeded.registersLegal (h : Succeeded i s t) (hs : s.RegistersLegal) : t.RegistersLegal where
  errSmall := by simp [h.err]
  errNotReserved := by simp [h.err]
  notBusy := h.same.busy.trans hs.notBusy
  nameLenSmall := h.hdrNameLen_le hs.nameLenSmall
  nCapLarge := h.same.caps ▸ hs.nCapLarge

/-! Steps -/

/-- The invariant speaks of the memories, the capacities, ERR, BUSY and HDR_NAME_LEN only. -/
theorem State.Inv.of_eq (h : s.Inv) (ht : t = { s with
    cmd := t.cmd, pixelCount := t.pixelCount, payloadLen := t.payloadLen, nameLen := t.nameLen, symLen := t.symLen,
    hdrSize := t.hdrSize, host := t.host, replies := t.replies }) : t.Inv := by
  rw [ht]
  exact ⟨{ h.1 with }, { h.2 with }⟩

theorem toNat_errCode_le (e : ErrCode) : (errCode e).toNat ≤ 7 := by cases e <;> decide

theorem errCode_ne_reserved {e : ErrCode} (he : e ≠ .nameDecode) : errCode e ≠ 4#4 := by
  revert he; cases e <;> decide

/-- A legal code in STATUS.ERR keeps the invariant. -/
theorem State.Inv.withErr (h : s.Inv) (e : ErrCode) (he : e ≠ .nameDecode) : State.Inv { s with err := errCode e } :=
  ⟨{ h.1 with }, { h.2 with errSmall := toNat_errCode_le e, errNotReserved := errCode_ne_reserved he }⟩

theorem exec_keeps_inv (h : exec i s = .next t) (hs : s.Inv) : t.Inv := by
  obtain ⟨hm, hr⟩ := hs
  rcases exec_next h with ⟨e, he, rfl⟩ | h
  · exact State.Inv.withErr ⟨hm, hr⟩ e (by rcases he with rfl | rfl | rfl | rfl | rfl <;> decide)
  · exact ⟨h.memoriesLegal hm, h.registersLegal hr⟩

theorem State.Inv.writeElement {sp : Space} {a : Nat} (v : Byte) (ha : a < spaceSize s.caps sp) (h : s.Inv) :
    (writeElement s sp a v).Inv :=
  ⟨writeElement_memoriesLegal v ha h.1, by
    cases sp <;> exact { h.2 with }⟩

theorem State.Inv.platformReset (h : s.Inv) : (platformReset s).Inv :=
  ⟨by constructor <;> simp [Machine.platformReset], { h.2 with
    errSmall := by simp
    errNotReserved := by simp
    notBusy := rfl
    nameLenSmall := by simp [Machine.platformReset] }⟩

/-- Settles O20, by cases on everything a step can do. -/
theorem stepKeepsTheInvariant : Obligations.StepKeepsTheInvariant := by
  intro s t hs h
  have popped (rest : List HostStep) : State.Inv { s with host := rest } := hs.of_eq rfl
  cases step_cases h with
  | idle _ ht => exact ht ▸ hs
  | command w i rest _ _ ht => exact exec_keeps_inv ht (hs.of_eq rfl)
  | illegal w _ rest _ _ ht =>
    have hcmd : State.Inv { s with cmd := w, host := rest } := hs.of_eq rfl
    exact ht ▸ hcmd.withErr .illegalCommand (by decide)
  | register r w rest _ _ ht => exact ht ▸ (popped rest).of_eq (by cases r <;> rfl)
  | reserved _ _ rest _ _ ht => exact ht ▸ popped rest
  | answered _ a rest _ _ ht => exact hs.of_eq (by rw [ht])
  | stored sp a v rest _ ha ht => exact ht ▸ (popped rest).writeElement v ha
  | reset rest _ ht => exact ht ▸ (popped rest).platformReset

end Sys2Proof.Machine
end

