-- ==== Sys2Proof/Proofs/HostAccess.lean ====
section
/-! SUPPORT. The host's accesses to registers and memory elements (10_state.md R20 to R34, R46), and the derived capacity
registers (R31). -/

open Sys2Proof.Claims

namespace Sys2Proof.Machine

variable {s : State} {rest : List HostStep}

/-! The capacity registers (10_state.md R31) -/

/-- Two halves of a number that fits 64 bits hold it in two's complement. -/
theorem toInt_ofInt_append {c : Int} (hlo : -2 ^ 63 ≤ c) (hhi : c < 2 ^ 63) :
    (BitVec.ofInt 32 (c / 2 ^ 32) ++ BitVec.ofInt 32 c : BitVec 64).toInt = c := by
  have hi : (BitVec.ofInt 32 (c / 2 ^ 32)).toInt = c / 2 ^ 32 :=
    (BitVec.toInt_ofInt _).trans (Int.bmod_eq_of_le (by omega) (by omega))
  have lo : ((BitVec.ofInt 32 c).toNat : Int) = c % 2 ^ 32 := by
    rw [BitVec.toNat_ofInt]
    exact Int.toNat_of_nonneg (Int.emod_nonneg c (by decide))
  rw [BitVec.toInt_append, if_neg (by decide), hi, lo]
  exact Int.mul_ediv_add_emod c (2 ^ 32)

/-- Settles O14: the capacity of any PIXEL_COUNT fits 64 bits. -/
theorem capacityRegistersHoldCapacity : Obligations.CapacityRegistersHoldCapacity := by
  intro s
  have := s.pixelCount.isLt
  exact toInt_ofInt_append (c := capacity s) (by unfold capacity; omega) (by unfold capacity; omega)

theorem capacityLo_eq (s : State) : capacityLo s = s.pixelCount - 128 := by
  refine BitVec.eq_of_toNat_eq ?_
  have h : (128 : Word).toNat = 128 := rfl
  simp only [capacityLo, capacity, BitVec.toNat_ofInt, BitVec.toNat_sub, h]
  omega

theorem capacityHi_eq (s : State) :
    capacityHi s = if s.pixelCount.toNat < 128 then 0xFFFFFFFF#32 else 0#32 := by
  have := s.pixelCount.isLt
  unfold capacityHi capacity
  split
  · rw [show ((s.pixelCount.toNat : Int) - 128) / 2 ^ 32 = -1 by omega]; rfl
  · rw [show ((s.pixelCount.toNat : Int) - 128) / 2 ^ 32 = 0 by omega]; rfl

/-! Register reads and writes -/

theorem statusWord_eq (s : State) : statusWord s = (if s.busy then 0x100#32 else 0#32) + s.err.setWidth 32 := by
  unfold statusWord
  generalize s.err = e
  cases s.busy <;> revert e <;> decide

/-- The spec's table of registers is the model's: each register's offset with what a read of it gives. -/
theorem registerMap_eq (s : State) : registerMap s = allRegs.map fun r => (regOffset r, readReg s r) := by
  simp [registerMap, allRegs, regOffset, readReg, statusWord_eq, capacityLo_eq, capacityHi_eq]

theorem step_eq_hostRegWrite {o n : Nat} {w : Word} (hb : s.busy = false) (hh : s.host = .regWrite o n w :: rest) :
    step s = hostRegWrite o n w { s with host := rest } := by
  rw [step_cons hh, interact_regWrite (by exact hb)]

theorem step_eq_hostRegRead {o n : Nat} (hb : s.busy = false) (hh : s.host = .regRead o n :: rest) :
    step s = hostRegRead o n { s with host := rest } := by
  rw [step_cons hh, interact_regRead (by exact hb)]

/-- A host write to a register other than CMD. -/
theorem step_regWrite {r : Reg} {w : Word} (hr : r ≠ .cmd) (hb : s.busy = false)
    (hh : s.host = .regWrite (regOffset r) 4 w :: rest) : step s = .next (writeReg { s with host := rest } r w) := by
  rw [step_eq_hostRegWrite hb hh, hostRegWrite_reg hr]

/-- Settles O5: the law of a step that issues a command. -/
theorem stepRunsTheDecodedCommand : Obligations.StepRunsTheDecodedCommand := by
  intro s w i rest hb hh hd
  exact step_command hb hh hd

/-- Settles O7: an entry of the spec's table is a register with its offset, and a read of a register gives its value. -/
theorem hostReadsARegister : Obligations.HostReadsARegister := by
  intro s offset w rest hb hw hh
  rw [registerMap_eq] at hw
  obtain ⟨r, -, hr⟩ := List.mem_map.1 hw
  cases hr
  exact step_regRead hb hh

/-- Settles O8, by cases on the register at the offset. -/
theorem hostWritesARegister : Obligations.HostWritesARegister := by
  intro s offset w rest hb hh
  have write (r : Reg) (hr : r ≠ .cmd) (ho : offset = regOffset r) :
      step s = .next (writeReg { s with host := rest } r w) := step_regWrite hr hb (ho ▸ hh)
  refine ⟨write .pixelCount nofun, write .payloadLen nofun, write .nameLen nofun, write .symLen nofun,
    write .hdrSize nofun, fun ho => ?_⟩
  simp only [List.mem_cons, List.not_mem_nil, or_false] at ho
  rcases ho with ho | ho | ho | ho | ho | ho | ho | ho
  · exact write .status nofun ho
  · exact write .hdrNameLen nofun ho
  · exact write .capacityLo nofun ho
  · exact write .capacityHi nofun ho
  · exact write .pCapReg nofun ho
  · exact write .bCapReg nofun ho
  · exact write .sCapReg nofun ho
  · exact write .nCapReg nofun ho

/-- A read at a reserved offset gives 0 (10_state.md R34). -/
theorem hostRegRead_reserved {o : Nat} (hlo : 0x38 ≤ o) (hhi : o ≤ 0xFC) (h4 : o % 4 = 0) :
    hostRegRead o 4 s = reply (.word 0) s := by
  simp [hostRegRead, (registerAccessOk_iff o 4).2 ⟨rfl, h4, hhi⟩, regAt_reserved hlo]

/-- A write at a reserved offset is ignored (10_state.md R34). -/
theorem hostRegWrite_reserved {o : Nat} (hlo : 0x38 ≤ o) (hhi : o ≤ 0xFC) (h4 : o % 4 = 0) (w : Word) :
    hostRegWrite o 4 w s = .next s := by
  simp [hostRegWrite, (registerAccessOk_iff o 4).2 ⟨rfl, h4, hhi⟩, regAt_reserved hlo]

/-- Settles O9: no register stands at a reserved offset, and an access that is not an aligned word below 0x100 is not admitted. -/
theorem reservedOffsetsAndBadAccesses : Obligations.ReservedOffsetsAndBadAccesses := by
  intro s o width w rest hb
  refine ⟨fun hlo hhi h4 => ⟨fun hh => ?_, fun hh => ?_⟩, fun hbad => ⟨fun hh => ?_, fun hh => ?_⟩⟩
  · rw [step_eq_hostRegRead hb hh, hostRegRead_reserved hlo hhi h4]
    rfl
  · rw [step_eq_hostRegWrite hb hh, hostRegWrite_reserved hlo hhi h4]
  · rw [step_eq_hostRegRead hb hh]
    simp [hostRegRead, registerAccessOk_false hbad]
  · rw [step_eq_hostRegWrite hb hh]
    simp [hostRegWrite, registerAccessOk_false hbad]

/-! Elements -/

theorem spaceLength_eq (c : Caps) (sp : Space) : spaceLength c sp = spaceSize c sp := by cases sp <;> rfl

theorem elementAt_eq (s : State) (sp : Space) (a : Nat) : elementAt s sp a = readElement s sp a := by
  cases sp
  case s => simp [elementAt, readElement, setWidth_symbol]
  all_goals rfl

/-- A host memory read in range answers the element, or is UNWRITTEN_READ. -/
theorem step_memRead {sp : Space} {a : Nat} (hb : s.busy = false) (ha : a < spaceSize s.caps sp)
    (hh : s.host = .memRead sp a :: rest) :
    step s = reading (readElement s sp a) fun v => .next { s with host := rest, replies := .element v :: s.replies } := by
  rw [step_cons hh, interact_memRead (by exact hb), hostMemRead, if_pos (by exact ha)]
  cases sp <;> rfl

/-- Settles O13: the spec's view of an element is the model's, and an element that is not there is UNWRITTEN_READ. -/
theorem hostReadOfAnElement : Obligations.HostReadOfAnElement := by
  intro s sp a rest hb ha hh
  rw [elementAt_eq, step_memRead hb (spaceLength_eq s.caps sp ▸ ha) hh]
  exact ⟨fun h => by rw [h, reading_none], fun v h => by rw [h, reading_some]⟩

end Sys2Proof.Machine
end

