-- ==== Sys2Proof/Proofs/SymbolsUnused.lean ====
section
/-! SUPPORT. INJECT and EXTRACT do not use the symbol memory (10_state.md R45): with any other S and SYM_LEN they meet the
same checks, read the same operands and write the same results. -/

namespace Sys2Proof.Machine

variable {s t : State}

/-- The state with another S and SYM_LEN. -/
def State.withSymbols (s : State) (x : Memory Symbol) (m : Word) : State := { s with memS := x, symLen := m }

theorem execInject_withSymbols (h : execInject s = .next t) (x : Memory Symbol) (m : Word) :
    execInject (s.withSymbols x m) = .next (t.withSymbols x m) ∧ t.memS = s.memS ∧ t.symLen = s.symLen := by
  rcases execInject_next.1 h with ⟨hp, rfl⟩ | ⟨hp, hb, rfl⟩ | ⟨hp, hb, hc, rfl⟩ |
    ⟨hp, hb, hc, hdr, hh, b, hr, cs, hcs, rfl⟩
  · exact ⟨execInject_next.2 (.inl ⟨hp, rfl⟩), rfl, rfl⟩
  · exact ⟨execInject_next.2 (.inr (.inl ⟨hp, hb, rfl⟩)), rfl, rfl⟩
  · exact ⟨execInject_next.2 (.inr (.inr (.inl ⟨hp, hb, hc, rfl⟩))), rfl, rfl⟩
  · exact ⟨execInject_next.2 (.inr (.inr (.inr ⟨hp, hb, hc, hdr, hh, b, hr, cs, hcs, rfl⟩))), rfl, rfl⟩

theorem execExtract_withSymbols (h : execExtract s = .next t) (x : Memory Symbol) (m : Word) :
    execExtract (s.withSymbols x m) = .next (t.withSymbols x m) ∧ t.memS = s.memS ∧ t.symLen = s.symLen := by
  rcases execExtract_next.1 h with ⟨hp, rfl⟩ | ⟨hp, hn, rfl⟩ | ⟨hp, hn, hdr, hh, hrest⟩
  · exact ⟨execExtract_next.2 (.inl ⟨hp, rfl⟩), rfl, rfl⟩
  · exact ⟨execExtract_next.2 (.inr (.inl ⟨hp, hn, rfl⟩)), rfl, rfl⟩
  have afterHeader {t' : State} := fun hrest' => (execExtract_next (s := s.withSymbols x m) (t := t')).2
    (.inr (.inr ⟨hp, hn, hdr, hh, hrest'⟩))
  rcases hrest with ⟨ht, rfl⟩ | ⟨ht, hb, rfl⟩ | ⟨ht, hb, d, hd, rfl⟩
  · exact ⟨afterHeader (.inl ⟨ht, rfl⟩), rfl, rfl⟩
  · exact ⟨afterHeader (.inr (.inl ⟨ht, hb, rfl⟩)), rfl, rfl⟩
  · exact ⟨afterHeader (.inr (.inr ⟨ht, hb, d, hd, rfl⟩)), rfl, rfl⟩

/-- Settles O42: each of the two commands commutes with replacing S and SYM_LEN. -/
theorem injectAndExtractIgnoreSymbols : Obligations.InjectAndExtractIgnoreSymbols := by
  intro i s t x m hi h
  rcases hi with rfl | rfl
  · exact execInject_withSymbols h x m
  · exact execExtract_withSymbols h x m

end Sys2Proof.Machine
end

