-- ==== Sys2Proof/Proofs/Faults.lean ====
section
/-! SUPPORT. When a command is UNWRITTEN_READ (10_state.md R46): its checks pass, and an element it reads is unwritten. For
each operand one lemma says which elements it needs, and for each meaning one lemma says when it faults. -/

open Sys2Proof.Claims

namespace Sys2Proof.Machine

variable {s : State}

/-! Reading, in terms of what exists -/

theorem reading_commit_fault {α : Type} (o : Option α) (f : α → State) :
    reading o (fun x => commit (f x)) = .fault .unwrittenRead ↔ ¬ o.isSome = true := by
  cases o <;> simp

/-- When what follows a read faults on one condition, whatever was read, the two conditions stand side by side. -/
theorem reading_fault_and {α : Type} (o : Option α) (go : α → Result) (P : Prop)
    (h : ∀ x, o = some x → (go x = .fault .unwrittenRead ↔ ¬ P)) :
    reading o go = .fault .unwrittenRead ↔ ¬ (o.isSome = true ∧ P) := by
  cases o with
  | none => simp
  | some x => simp [h x rfl]

/-! The elements each operand needs -/

theorem Memory.written_zero {α : Type} (m : Memory α) (a : Nat) : m.written a 0 :=
  fun k hk => absurd hk (Nat.not_lt_zero k)

theorem nameBytes_isSome : (nameBytes s).isSome = true ↔ s.memN.written 0 (min s.nameLen.toNat 124) :=
  gather_isSome _ _ _

theorem formattedHeader_isSome :
    (formattedHeader s).isSome = true ↔ s.memN.written 0 (min s.nameLen.toNat 124) := by
  rw [formattedHeader, Option.isSome_map, nameBytes_isSome]

theorem payloadBytes_isSome : (payloadBytes s).isSome = true ↔ s.memB.written 0 s.payloadLen.toNat :=
  gather_isSome _ _ _

theorem prefixBytes_isSome (hp : Bool) : (prefixBytes hp s).isSome = true ↔ s.memH.written 0 (prefixLength hp) := by
  cases hp with
  | false => exact ⟨fun _ => Memory.written_zero s.memH 0, fun _ => rfl⟩
  | true => exact gather_isSome s.memH.read 0 128

theorem gather_packAt_isSome (m : Memory Symbol) (n : Nat) :
    (gather (packAt m) 0 n).isSome = true ↔ m.written 0 (4 * n) := by
  rw [gather_isSome]
  simp only [packAt_isSome]
  constructor
  · intro h k hk
    have := h (k / 4) (by omega) (k % 4) (by omega)
    rwa [show 4 * (0 + k / 4) + k % 4 = 0 + k by omega] at this
  · intro h j hj q hq
    have := h (4 * j + q) (by omega)
    rwa [show 0 + (4 * j + q) = 4 * (0 + j) + q by omega] at this

theorem gather_muxAt_isSome (p : Memory Byte) (x : Memory Symbol) (n : Nat) :
    (gather (muxAt p x) 0 n).isSome = true ↔ p.written 0 n ∧ x.written 0 n := by
  rw [gather_isSome]
  simp only [muxAt_isSome, imp_and, forall_and]

theorem headerPixels_isSome (m : Memory Byte) : (gather (pixbyteAt m) 0 128).isSome = true ↔ m.written 0 512 :=
  gather_pixbyte_isSome m 0 128

theorem payloadPixels_isSome (m : Memory Byte) (n : Nat) :
    (gather (pixbyteAt m) 128 n).isSome = true ↔ m.written 512 (4 * n) :=
  gather_pixbyte_isSome m 128 n

/-! Each meaning -/

theorem execFormatHeader_fault :
    execFormatHeader s = .fault .unwrittenRead ↔ ¬ s.memN.written 0 (min s.nameLen.toNat 124) := by
  rw [execFormatHeader, reading_commit_fault, formattedHeader_isSome]

theorem symbolizeWith_fault (hp : Bool) : symbolizeWith hp s = .fault .unwrittenRead ↔
    s.payloadLen.toNat ≤ s.caps.bCap.toNat ∧ 4 * (prefixLength hp + s.payloadLen.toNat) ≤ s.caps.sCap.toNat ∧
      ¬ (s.memH.written 0 (prefixLength hp) ∧ s.memB.written 0 s.payloadLen.toNat) := by
  have e : (if hp = true then 128 else 0) = prefixLength hp := rfl
  rw [← prefixBytes_isSome, ← payloadBytes_isSome]
  simp only [symbolizeWith, e, check_fault, not_lt]
  rw [reading_fault_and _ _ _ fun h _ => reading_commit_fault _ _]

theorem execDesymbolize_fault : execDesymbolize s = .fault .unwrittenRead ↔
    s.symLen.toNat ≤ s.caps.sCap.toNat ∧ 4 * s.payloadLen.toNat ≤ s.symLen.toNat ∧
      s.payloadLen.toNat ≤ s.caps.bCap.toNat ∧ ¬ s.memS.written 0 (4 * s.payloadLen.toNat) := by
  simp only [execDesymbolize, check_fault, not_lt, reading_commit_fault, gather_packAt_isSome]

theorem execEmbed_fault : execEmbed s = .fault .unwrittenRead ↔
    s.pixelCount.toNat ≤ s.caps.pCap.toNat ∧ s.symLen.toNat ≤ s.caps.sCap.toNat ∧
      s.symLen.toNat ≤ 4 * s.pixelCount.toNat ∧
      ¬ (s.memP.written 0 s.symLen.toNat ∧ s.memS.written 0 s.symLen.toNat) := by
  simp only [execEmbed, check_fault, not_lt, reading_commit_fault, gather_muxAt_isSome]

theorem execExtractSymbols_fault : execExtractSymbols s = .fault .unwrittenRead ↔
    s.pixelCount.toNat ≤ s.caps.pCap.toNat ∧ 4 * s.pixelCount.toNat ≤ s.caps.sCap.toNat ∧
      ¬ s.memP.written 0 (4 * s.pixelCount.toNat) := by
  simp only [execExtractSymbols, check_fault, not_lt, reading_commit_fault, Memory.readBlock, gather_isSome]

theorem execReadHeader_fault : execReadHeader s = .fault .unwrittenRead ↔
    s.pixelCount.toNat ≤ s.caps.pCap.toNat ∧ 128 ≤ s.pixelCount.toNat ∧ ¬ s.memP.written 0 512 := by
  simp only [execReadHeader, check_fault, not_lt, reading_commit_fault, headerPixels_isSome]

theorem execReadPayload_fault : execReadPayload s = .fault .unwrittenRead ↔
    s.pixelCount.toNat ≤ s.caps.pCap.toNat ∧ s.hdrSize.toNat ≤ s.pixelCount.toNat - 128 ∧
      s.hdrSize.toNat ≤ s.caps.bCap.toNat ∧ ¬ s.memP.written 512 (4 * s.hdrSize.toNat) := by
  simp only [execReadPayload, check_fault, not_lt, reading_commit_fault, payloadPixels_isSome]

theorem execInject_fault : execInject s = .fault .unwrittenRead ↔
    s.pixelCount.toNat ≤ s.caps.pCap.toNat ∧ s.payloadLen.toNat ≤ s.caps.bCap.toNat ∧
      128 + s.payloadLen.toNat ≤ s.pixelCount.toNat ∧ ¬ injectInputsWritten s := by
  have pixels (hdr b : List Byte) (hh : formattedHeader s = some hdr) (hb : payloadBytes s = some b) :
      (muxPixels s.memP 0 (hdr ++ b)).isSome = true ↔ s.memP.written 0 (4 * (128 + s.payloadLen.toNat)) := by
    rw [muxPixels_isSome, List.length_append, length_formattedHeader hh, length_payloadBytes hb]
  rw [injectInputsWritten, ← formattedHeader_isSome, ← payloadBytes_isSome]
  simp only [execInject, capacity_lt, check_fault, not_lt]
  rw [reading_fault_and _ _ _ fun hdr hh => reading_fault_and _ _ _ fun b hb => by
    rw [reading_commit_fault, pixels hdr b hh hb]]

/-! EXTRACT, which takes the size from the pixels -/

/-- The spec's byte of a pixel is the model's (30_encoding.md R86). -/
theorem carried_eq (p : Memory Byte) (j : Nat) : carried p j = pixbyteAt p j := by
  have demux (c : Byte) : (demuxCh c).setWidth 8 = c &&& 3 := by revert c; decide +kernel
  rw [carried, pixbyteAt, Memory.pixel]
  cases p.read (4 * j) <;> cases p.read (4 * j + 1) <;> cases p.read (4 * j + 2) <;> cases p.read (4 * j + 3) <;>
    simp [pixbyte, pack, demux]

/-- The word whose bytes are the four given ones, least significant first. -/
theorem le32_append (b0 b1 b2 b3 : Byte) : le32 (b3 ++ b2 ++ b1 ++ b0) = [b0, b1, b2, b3] := by
  have h0 : (b3 ++ b2 ++ b1 ++ b0 : Word).extractLsb' 0 8 = b0 := BitVec.extractLsb'_append_eq_right
  have h1 : (b3 ++ b2 ++ b1 ++ b0 : Word).extractLsb' 8 8 = b1 :=
    (BitVec.extractLsb'_append_eq_of_le (by decide)).trans BitVec.extractLsb'_append_eq_right
  have h2 : (b3 ++ b2 ++ b1 ++ b0 : Word).extractLsb' 16 8 = b2 :=
    (BitVec.extractLsb'_append_eq_of_le (by decide)).trans
      ((BitVec.extractLsb'_append_eq_of_le (by decide)).trans BitVec.extractLsb'_append_eq_right)
  have h3 : (b3 ++ b2 ++ b1 ++ b0 : Word).extractLsb' 24 8 = b3 :=
    (BitVec.extractLsb'_append_eq_of_le (by decide)).trans
      ((BitVec.extractLsb'_append_eq_of_le (by decide)).trans BitVec.extractLsb'_append_eq_left)
  rw [le32, h0, h1, h2, h3]

theorem le32_get (v : Word) {i : Nat} (hi : i < 4) : (le32 v)[i]? = some (v.extractLsb' (8 * i) 8) := by
  rcases i with _ | _ | _ | _ | i
  case succ => omega
  all_goals rfl

/-- A header's first four bytes are the bytes of its size (30_encoding.md R83). -/
theorem hdrSizeOf_get {hdr : List Byte} (hl : 4 ≤ hdr.length) {i : Nat} (hi : i < 4) :
    hdr[i]? = some ((hdrSizeOf hdr).extractLsb' (8 * i) 8) := by
  obtain ⟨b0, b1, b2, b3, l, rfl⟩ : ∃ b0 b1 b2 b3 l, hdr = b0 :: b1 :: b2 :: b3 :: l := by
    match hdr, hl with
    | b0 :: b1 :: b2 :: b3 :: l, _ => exact ⟨b0, b1, b2, b3, l, rfl⟩
  have first (k : Nat) (hk : k < 4) :
      (b0 :: b1 :: b2 :: b3 :: l)[k]? = some ((b3 ++ b2 ++ b1 ++ b0 : Word).extractLsb' (8 * k) 8) := by
    rw [← le32_get _ hk, le32_append]
    exact List.getElem?_append_left (l₁ := [b0, b1, b2, b3]) (l₂ := l) hk
  rw [hdrSizeOf_eq _ _ first, first i hi]

/-- The size the pixels carry is the size of the header read from them. -/
theorem carried_size_iff {m : Memory Byte} {hdr : List Byte} (hh : gather (pixbyteAt m) 0 128 = some hdr) (v : Word) :
    (∀ i, i < 4 → carried m i = some (v.extractLsb' (8 * i) 8)) ↔ v = hdrSizeOf hdr := by
  have get (i : Nat) (hi : i < 4) : carried m i = hdr[i]? := by
    rw [carried_eq, ← gather_get hh (by omega), Nat.zero_add]
  constructor
  · intro h
    exact (hdrSizeOf_eq hdr v fun i hi => (get i hi).symm.trans (h i hi)).symm
  · rintro rfl i hi
    rw [get i hi, hdrSizeOf_get (by rw [gather_length hh]; decide) hi]

theorem execExtract_fault : execExtract s = .fault .unwrittenRead ↔
    s.pixelCount.toNat ≤ s.caps.pCap.toNat ∧ 128 ≤ s.pixelCount.toNat ∧
      (¬ s.memP.written 0 512 ∨
        ∃ v : Word, (∀ i, i < 4 → carried s.memP i = some (v.extractLsb' (8 * i) 8)) ∧
          128 + v.toNat ≤ s.pixelCount.toNat ∧ v.toNat ≤ s.caps.bCap.toNat ∧
          ¬ s.memP.written 512 (4 * v.toNat)) := by
  simp only [execExtract, check_fault, not_lt]
  refine and_congr_right fun _ => and_congr_right fun hn => ?_
  rw [← headerPixels_isSome]
  cases hh : gather (pixbyteAt s.memP) 0 128 with
  | none => simp
  | some hdr =>
    have hfit : (hdrSizeOf hdr).toNat ≤ s.pixelCount.toNat - 128 ↔
        128 + (hdrSizeOf hdr).toNat ≤ s.pixelCount.toNat := by omega
    simp only [reading_some, check_fault, not_lt, reading_commit_fault, payloadPixels_isSome, carried_size_iff hh,
      exists_eq_left, Option.isSome_some, not_true, false_or, hfit]

/-- Settles O36: one lemma per meaning. SYMBOLIZE without a header reads nothing of H. -/
theorem commandsFaultExactlyOnUnwrittenReads : Obligations.CommandsFaultExactlyOnUnwrittenReads := by
  intro s
  refine ⟨commit_fault s _, execFormatHeader_fault, ?_, symbolizeWith_fault true, execDesymbolize_fault,
    execEmbed_fault, execExtractSymbols_fault, execReadHeader_fault, execReadPayload_fault, execInject_fault,
    execExtract_fault⟩
  have noPrefix : s.memH.written 0 (prefixLength false) := Memory.written_zero s.memH 0
  have hl : prefixLength false = 0 := rfl
  exact (symbolizeWith_fault false).trans (by rw [iff_true_intro noPrefix, true_and, hl, Nat.zero_add])

end Sys2Proof.Machine
end

