-- ==== Sys2Proof/Proofs/Memories.lean ====
section
/-! SUPPORT. The memories (20_memory.md): what a host write stores and leaves alone (R50, R52, R62), which accesses are refused
(R57), and which memories each command leaves alone (R68). -/

open Sys2Proof.Claims

namespace Sys2Proof.Machine

variable {s t : State} {i : Instr} {rest : List HostStep}

/-! Host accesses to elements -/

theorem step_eq_hostMemRead {sp : Space} {a : Nat} (hb : s.busy = false) (hh : s.host = .memRead sp a :: rest) :
    step s = hostMemRead sp a { s with host := rest } := by
  rw [step_cons hh, interact_memRead (by exact hb)]

theorem step_eq_hostMemWrite {sp : Space} {a : Nat} {v : Byte} (hb : s.busy = false)
    (hh : s.host = .memWrite sp a v :: rest) : step s = hostMemWrite sp a v { s with host := rest } := by
  rw [step_cons hh, interact_memWrite (by exact hb)]

/-- A host memory write in range stores the element. -/
theorem step_memWrite {sp : Space} {a : Nat} {v : Byte} (hb : s.busy = false) (ha : a < spaceSize s.caps sp)
    (hh : s.host = .memWrite sp a v :: rest) : step s = .next (writeElement { s with host := rest } sp a v) := by
  rw [step_eq_hostMemWrite hb hh, hostMemWrite, if_pos (by exact ha)]

/-- Settles O10: an index outside its space fails the range check, and an offset above 0xFC is not admitted. -/
theorem outOfRangeAccessesAreRefused : Obligations.OutOfRangeAccessesAreRefused := by
  intro s sp a width v w rest hb
  refine ⟨fun ha => ?_, fun ha => ?_⟩
  · have outside : ¬ a < spaceSize s.caps sp := by rw [← spaceLength_eq]; omega
    exact ⟨fun hh => by rw [step_eq_hostMemRead hb hh, hostMemRead, if_neg (by exact outside)],
      fun hh => by rw [step_eq_hostMemWrite hb hh, hostMemWrite, if_neg (by exact outside)]⟩
  · exact (reservedOffsetsAndBadAccesses s a width w rest hb).2 (.inl ha)

/-! What the host writes -/

/-- The symbol a container byte stores: its bits 1:0 (20_memory.md R52). -/
theorem setWidth_container (v : Byte) : v.setWidth 2 = (v &&& 3).extractLsb' 0 2 := by
  revert v; decide +kernel

/-- The elements do not depend on the host's list. -/
@[simp] theorem readElement_host (sp : Space) (a : Nat) : readElement { s with host := rest } sp a = readElement s sp a := by
  cases sp <;> rfl

@[simp] theorem replies_writeElement (sp : Space) (a : Nat) (v : Byte) :
    (writeElement s sp a v).replies = s.replies := by
  cases sp <;> rfl

/-- Settles O11: a host read of a written symbol answers its container, and a host write is one `Memory.write` of S. -/
theorem hostViewOfSymbolMemory : Obligations.HostViewOfSymbolMemory := by
  intro s k rest hb hk
  refine ⟨fun x hx hh => ?_, fun v hh => ⟨_, step_memWrite hb hk hh, ?_, fun j hj => ?_, rfl⟩⟩
  · exact (hostReadOfAnElement s .s k rest hb hk hh).2 _ (by simp [elementAt, hx])
  · rw [← setWidth_container]
    exact Memory.read_write_same _ k _
  · exact Memory.read_write_other _ k j _ hj

/-- A host write to a space other than S leaves alone every field but the four byte memories (20_memory.md R50). -/
theorem writeElement_frame {sp : Space} (a : Nat) (v : Byte) (hs : sp ≠ .s) :
    writeElement s sp a v = { s with
      memP := (writeElement s sp a v).memP, memB := (writeElement s sp a v).memB
      memH := (writeElement s sp a v).memH, memN := (writeElement s sp a v).memN } := by
  cases sp
  case s => exact absurd rfl hs
  all_goals rfl

/-- A host write to a space leaves the memories of the other spaces alone (20_memory.md R50). -/
theorem writeElement_otherSpaces (sp : Space) (a : Nat) (v : Byte) :
    (sp ≠ .pb → (writeElement s sp a v).memP = s.memP) ∧ (sp ≠ .b → (writeElement s sp a v).memB = s.memB) ∧
    (sp ≠ .h → (writeElement s sp a v).memH = s.memH) ∧ (sp ≠ .n → (writeElement s sp a v).memN = s.memN) := by
  cases sp <;> simp [writeElement]

/-- Settles O12: the step stores the element, and the read in the next step finds it. -/
theorem hostWriteIsReadBack : Obligations.HostWriteIsReadBack := by
  intro s sp a v rest hb hs ha hh
  have ha' : a < spaceSize s.caps sp := spaceLength_eq s.caps sp ▸ ha
  refine ⟨_, _, step_memWrite hb ha' hh, ?read, rfl, fun sp' a' hne => ?others, writeElement_frame a v hs,
    writeElement_otherSpaces sp a v⟩
  case read =>
    rw [step_memRead (by simpa using hb) (by simpa using ha') (host_writeElement sp a v),
      readElement_writeElement_same a v hs, reading_some,
      replies_writeElement]
  case others =>
    rw [elementAt_eq, elementAt_eq, readElement_writeElement_other v hne, readElement_host]

/-! What the commands write -/

/-- The memories that only some commands write, with the commands that write them (20_memory.md R68). -/
structure KeepsMemories (i : Instr) (s t : State) : Prop where
  memP : i ≠ .embed → i ≠ .inject → t.memP = s.memP
  memB : i ≠ .desymbolize → i ≠ .readPayload → i ≠ .extract → t.memB = s.memB
  memH : i ≠ .formatHeader → i ≠ .readHeader → i ≠ .inject → i ≠ .extract → t.memH = s.memH
  memS : i ≠ .symbolize → i ≠ .symbolizeH → i ≠ .extractSymbols → t.memS = s.memS

theorem Raised.keepsMemories (h : Raised s t) : KeepsMemories i s t := by
  obtain ⟨_, _, rfl⟩ := h
  constructor <;> intros <;> rfl

theorem Succeeded.keepsMemories (h : Succeeded i s t) : KeepsMemories i s t := by
  cases i
  case nop => rw [h]; constructor <;> simp
  case formatHeader => obtain ⟨_, _, rfl⟩ := h; constructor <;> simp
  case symbolize | symbolizeH => obtain ⟨_, _, _, _, _, _, rfl⟩ := h; constructor <;> simp
  case desymbolize | embed | readPayload => obtain ⟨_, _, _, _, _, rfl⟩ := h; constructor <;> simp
  case extractSymbols | readHeader => obtain ⟨_, _, _, _, rfl⟩ := h; constructor <;> simp
  case inject => obtain ⟨_, _, _, _, _, _, _, _, _, rfl⟩ := h; constructor <;> simp
  case extract => obtain ⟨_, _, _, _, _, _, _, _, rfl⟩ := h; constructor <;> simp

theorem exec_keepsMemories (h : exec i s = .next t) : KeepsMemories i s t :=
  (exec_next h).elim Raised.keepsMemories Succeeded.keepsMemories

/-- Settles O38: a memory the command does not write is the same memory, so each of its elements is the same. -/
theorem commandsKeepOtherMemories : Obligations.CommandsKeepOtherMemories := by
  intro i s t h
  have keeps := exec_keepsMemories h
  refine ⟨fun a => ?_, fun h₁ h₂ a => ?_, fun h₁ h₂ h₃ a => ?_, fun h₁ h₂ h₃ h₄ a => ?_, fun h₁ h₂ h₃ a => ?_⟩
  · rw [(exec_same h).memN]
  · rw [keeps.memP h₁ h₂]
  · rw [keeps.memB h₁ h₂ h₃]
  · rw [keeps.memH h₁ h₂ h₃ h₄]
  · rw [keeps.memS h₁ h₂ h₃]

end Sys2Proof.Machine
end

