-- ==== Sys2Proof/Proofs/Encoding.lean ====
section
/-! SUPPORT. The command words (30_encoding.md R70 to R75): a word is its three fields, decoding inverts encoding, and the
illegal words are the three cases of R74. The data encodings: packed symbols (R79) and the name in a header (R82 to R84). -/

open Sys2Proof.Claims

namespace Sys2Proof

variable {w : Word} {i : Instr}

/-! Words and their fields -/

/-- A word is its RSV above its HP above its OP (30_encoding.md R71). -/
theorem wordOfFields_fields (w : Word) : wordOfFields ⟨opField w, hpField w, rsvField w⟩ = w := by
  have upper : rsvField w ++ hpField w = w.extractLsb' 4 28 := BitVec.extractLsb'_append_extractLsb'_eq_extractLsb' rfl
  have whole : w.extractLsb' 4 28 ++ opField w = w.extractLsb' 0 32 :=
    BitVec.extractLsb'_append_extractLsb'_eq_extractLsb' rfl
  rw [wordOfFields, upper, whole, BitVec.extractLsb'_eq_self]

theorem instr_wf (i : Instr) : i.wf = true := by cases i <;> rfl

/-! Decoding -/

/-- The three illegal cases (30_encoding.md R74). -/
def IllegalWord (w : Word) : Prop :=
  rsvField w ≠ 0#27 ∨ 9 < (opField w).toNat ∨ (hpField w = 1#1 ∧ opField w ≠ 2#4)

theorem not_illegalWord_iff : ¬IllegalWord w ↔
    rsvField w = 0#27 ∧ (opField w).toNat ≤ 9 ∧ (hpField w = 1#1 → opField w = 2#4) := by
  simp [IllegalWord]

theorem decode_of_illegal (h : IllegalWord w) : ∃ e, decode w = .error e := by
  unfold decode
  split
  · exact ⟨_, rfl⟩
  next hrsv =>
  split
  · exact ⟨_, rfl⟩
  next hop =>
  rw [if_pos ((h.resolve_left hrsv).resolve_left hop)]
  exact ⟨_, rfl⟩

theorem decode_of_not_illegal (h : ¬IllegalWord w) :
    decode w = commandOf (opField w).toNat (hpField w == 1#1) := by
  obtain ⟨hrsv, hop, hhp⟩ := not_illegalWord_iff.1 h
  rw [decode, if_neg (not_not_intro hrsv), if_neg (Nat.not_lt.2 hop), if_neg fun hne => hne.2 (hhp hne.1)]

theorem not_illegalWord_of_decode (h : decode w = .ok i) : ¬IllegalWord w := fun hw => by
  obtain ⟨e, he⟩ := decode_of_illegal hw
  cases h.symm.trans he

theorem commandOf_defined {n : Nat} (hn : n ≤ 9) (hp : Bool) : ∃ i, commandOf n hp = .ok i := by
  interval_cases n <;> exact ⟨_, rfl⟩

/-- The command an opcode and an HP bit select has them as its fields. -/
theorem fields_of_commandOf {n : Nat} {hp : Bool} (hlegal : hp = true → n = 2) (h : commandOf n hp = .ok i) :
    i.fields = ⟨BitVec.ofNat 4 n, BitVec.ofBool hp, 0⟩ := by
  cases hp with
  | true =>
    obtain rfl := hlegal rfl
    cases h
    rfl
  | false =>
    unfold commandOf at h
    split at h <;> cases h <;> rfl

theorem decode_encode (i : Instr) : decode (encode i) = .ok i := by cases i <;> rfl

/-- The word of a decoded command is the word it was decoded from: the command has the word's fields. -/
theorem encode_of_decode (h : decode w = .ok i) : encode i = w := by
  have legal := not_illegalWord_of_decode h
  rw [decode_of_not_illegal legal] at h
  obtain ⟨hrsv, -, hhp⟩ := not_illegalWord_iff.1 legal
  have fields := fields_of_commandOf (fun hp => by rw [hhp (beq_iff_eq.1 hp)]; rfl) h
  have bit : ∀ b : BitVec 1, BitVec.ofBool (b == 1#1) = b := by decide
  rw [BitVec.ofNat_toNat, BitVec.setWidth_eq, bit] at fields
  calc
    encode i = wordOfFields ⟨opField w, hpField w, rsvField w⟩ := by rw [encode, fields, hrsv]; rfl
    _ = w := wordOfFields_fields w

theorem decode_eq_ok_iff : decode w = .ok i ↔ encode i = w :=
  ⟨encode_of_decode, fun h => h ▸ decode_encode i⟩

/-- Settles O3: a decoded command encodes to its word, and an encoded command decodes to itself. -/
theorem decodeInvertsEncode : Obligations.DecodeInvertsEncode :=
  fun _ i => ⟨decode_eq_ok_iff, instr_wf i⟩

/-! The opcode map (30_encoding.md R72) -/

theorem mem_opcodeMap_iff : (i, w) ∈ opcodeMap ↔ encode i = w := by
  have words : ∀ p ∈ opcodeMap, encode p.1 = p.2 := by decide
  have listed (i : Instr) : (i, encode i) ∈ opcodeMap := by cases i <;> decide
  exact ⟨words (i, w), fun h => h ▸ listed i⟩

/-- Settles O2: the map pairs each command with its encoding, which is the one word that decodes to it. -/
theorem opcodeMapIsExact : Obligations.OpcodeMapIsExact :=
  fun _ _ => decode_eq_ok_iff.trans mem_opcodeMap_iff.symm

/-- Settles O1: each word written out is its command's encoding. -/
theorem wordsOfTheOpcodeMapDecode : Obligations.WordsOfTheOpcodeMapDecode :=
  ⟨decode_encode .nop, decode_encode .formatHeader, decode_encode .symbolize, decode_encode .symbolizeH,
    decode_encode .desymbolize, decode_encode .embed, decode_encode .extractSymbols, decode_encode .readHeader,
    decode_encode .readPayload, decode_encode .inject, decode_encode .extract⟩

/-- The words the map does not list are those of the three cases (30_encoding.md R74). -/
theorem not_mem_opcodeMap_iff : (∀ i, (i, w) ∉ opcodeMap) ↔ IllegalWord w := by
  simp only [mem_opcodeMap_iff, ← decode_eq_ok_iff]
  constructor
  · intro unlisted
    by_contra legal
    obtain ⟨-, hop, -⟩ := not_illegalWord_iff.1 legal
    obtain ⟨i, hi⟩ := commandOf_defined hop (hpField w == 1#1)
    exact unlisted i ((decode_of_not_illegal legal).trans hi)
  · exact fun illegal i hi => not_illegalWord_of_decode hi illegal

end Sys2Proof

namespace Sys2Proof.Machine

/-- Settles O4: an unlisted word is one of the three cases, so it does not decode, and CMD takes it with an error. -/
theorem illegalWordsOnlySetErr : Obligations.IllegalWordsOnlySetErr := by
  refine ⟨fun w => not_mem_opcodeMap_iff, fun s w rest hb hh hw => ?_⟩
  obtain ⟨e, he⟩ := decode_of_illegal (not_mem_opcodeMap_iff.1 hw)
  rw [step_eq_hostRegWrite hb hh, hostRegWrite_cmd, issueCommand_error he]

/-! Packed symbols (30_encoding.md R79) -/

theorem toNat_append_symbol {m : Nat} (x : BitVec m) (y : Symbol) : (x ++ y).toNat = x.toNat * 4 + y.toNat := by
  rw [BitVec.toNat_append, ← Nat.shiftLeft_add_eq_or_of_lt y.isLt, Nat.shiftLeft_eq]

/-- Settles O44: the sum of the shifted fields is below 256, so it is the number whose base-4 digits are the symbols. -/
theorem packingNeverCarries : Obligations.PackingNeverCarries := by
  intro x0 x1 x2 x3
  have := x0.isLt
  have := x1.isLt
  have := x2.isLt
  have := x3.isLt
  refine BitVec.eq_of_toNat_eq ?_
  simp only [toNat_append_symbol, pack, BitVec.toNat_add, BitVec.toNat_shiftLeft, BitVec.toNat_setWidth,
    Nat.shiftLeft_eq]
  omega

/-! The name in a header (30_encoding.md R82 to R84) -/

theorem getD_fmtHeader (v : Word) (name : List Byte) {j : Nat} (hj : j < 124) :
    (fmtHeader v name).getD (4 + j) 0 = name.getD j 0 := by
  rcases Nat.lt_or_ge j name.length with h | h
  · rw [List.getD_eq_getElem?_getD, fmtHeader_name v name j h, List.getD_eq_getElem?_getD]
  · rw [List.getD_eq_getElem?_getD, fmtHeader_padding v name j h hj, List.getD_eq_default _ _ h]
    rfl

/-- From the stripped length on, a name holds 0x00 only. -/
theorem getD_after_rdropWhile (name : List Byte) {j : Nat} (h : (name.rdropWhile (· == 0)).length ≤ j) :
    name.getD j 0 = 0 := by
  rw [← List.rdropWhile_append_rtakeWhile (p := (· == 0)) (l := name), List.getD_append_right _ _ _ _ h]
  rcases Nat.lt_or_ge (j - (name.rdropWhile (· == 0)).length) (name.rtakeWhile (· == 0)).length with hj | hj
  · rw [List.getD_eq_getElem _ _ hj]
    exact beq_iff_eq.1 (List.mem_rtakeWhile_imp (p := (· == 0)) (List.getElem_mem hj))
  · exact List.getD_eq_default _ _ hj

/-- The last byte a name keeps when it is stripped is not 0x00. -/
theorem getD_last_rdropWhile (name : List Byte) (h : (name.rdropWhile (· == 0)).length ≠ 0) :
    name.getD ((name.rdropWhile (· == 0)).length - 1) 0 ≠ 0 := by
  have hne : name.rdropWhile (· == 0) ≠ [] := fun h' => h (by rw [h']; rfl)
  have hlast := List.rdropWhile_last_not (· == 0) name hne
  have hlt : (name.rdropWhile (· == 0)).length - 1 < (name.rdropWhile (· == 0)).length := by omega
  have kept := List.prefix_iff_getElem?.1 (List.rdropWhile_prefix (· == 0) name) _ hlt
  rw [List.getD_eq_getElem?_getD, kept, ← List.getLast_eq_getElem hne]
  exact fun h' => hlast (beq_iff_eq.2 h')

theorem namelen_fmtHeader (v : Word) {name : List Byte} (h : name.length ≤ 124) :
    namelen (fmtHeader v name) = (name.rdropWhile (· == 0)).length := by
  have hle := (List.rdropWhile_prefix (· == 0) name).length_le
  refine namelen_unique _ _ (hle.trans h) (fun j hk hj => ?_) fun hk => ?_
  · rw [getD_fmtHeader v name hj]
    exact getD_after_rdropWhile name hk
  · rw [getD_fmtHeader v name (by omega)]
    exact getD_last_rdropWhile name hk

/-- Settles O45: the parser finds where the name's trailing zeros begin. -/
theorem formattedNameIsRecovered : Obligations.FormattedNameIsRecovered := by
  intro v name h
  refine ⟨?_, fmtHeader_name v name⟩
  rw [namelen_fmtHeader v h, List.rdropWhile, List.length_reverse]

end Sys2Proof.Machine
end

