-- ==== Sys2Proof/Proofs/BitstreamCodec.lean ====
section
/-! SUPPORT. The BitStreamCodec (40_bitstream_codec.md): what SYMBOLIZE and SYMBOLIZE.H write to S (R101), what DESYMBOLIZE
writes to B (R102), and that the second undoes the first (R103). Both directions are said byte by byte of one stream. -/

namespace Sys2Proof.Machine

variable {s t : State} {hp : Bool}

/-! The byte stream that SYMBOLIZE serializes -/

/-- Byte `j` of the stream: the bytes of H, if any, and then the payload from B (40_bitstream_codec.md R101). -/
def streamByte (hp : Bool) (s : State) (j : Nat) : Option Byte :=
  if j < prefixLength hp then s.memH.read j else s.memB.read (j - prefixLength hp)

theorem prefixBytes_get {h : List Byte} (hh : prefixBytes hp s = some h) {j : Nat} (hj : j < prefixLength hp) :
    h[j]? = s.memH.read j := by
  cases hp with
  | false => exact absurd hj (Nat.not_lt_zero j)
  | true => rw [← gather_get (f := s.memH.read) (a := 0) hh hj, Nat.zero_add]

theorem payloadBytes_get {b : List Byte} (hb : payloadBytes s = some b) {j : Nat} (hj : j < s.payloadLen.toNat) :
    b[j]? = s.memB.read j := by
  rw [← gather_get hb hj, Nat.zero_add]

/-- The bytes ahead of the payload and then the payload are the stream. -/
theorem prefix_append_payload_get {h b : List Byte} (hh : prefixBytes hp s = some h) (hb : payloadBytes s = some b)
    {j : Nat} (hj : j < prefixLength hp + s.payloadLen.toNat) : (h ++ b)[j]? = streamByte hp s j := by
  have hl := length_prefixBytes hh
  unfold streamByte
  split
  next hj' => rw [List.getElem?_append_left (by omega), prefixBytes_get hh hj']
  next hj' => rw [List.getElem?_append_right (by omega), hl, payloadBytes_get hb (by omega)]

/-! SYMBOLIZE and SYMBOLIZE.H -/

theorem symbolized_of_written (hB : s.payloadLen.toNat ≤ s.caps.bCap.toNat)
    (hS : 4 * (prefixLength hp + s.payloadLen.toNat) ≤ s.caps.sCap.toNat) (hH : s.memH.written 0 (prefixLength hp))
    (hP : s.memB.written 0 s.payloadLen.toNat) : ∃ t, Symbolized hp s t := by
  obtain ⟨h, hh⟩ := Option.isSome_iff_exists.1 ((prefixBytes_isSome hp).2 hH)
  obtain ⟨b, hb⟩ := gather_of_written hP
  exact ⟨_, hB, hS, h, hh, b, hb, rfl⟩

/-- SYMBOLIZE serializes its stream, given as one list of bytes. -/
theorem Symbolized.stream (ht : Symbolized hp s t) : ∃ d : List Byte,
    d.length = prefixLength hp + s.payloadLen.toNat ∧ (∀ j, j < d.length → d[j]? = streamByte hp s j) ∧
    t.memS = s.memS.writeBlock 0 (serialize d) := by
  obtain ⟨-, -, h, hh, b, hb, rfl⟩ := ht
  have hl : (h ++ b).length = prefixLength hp + s.payloadLen.toNat := by
    rw [List.length_append, length_prefixBytes hh, length_payloadBytes hb]
  exact ⟨h ++ b, hl, fun j hj => prefix_append_payload_get hh hb (hl ▸ hj), rfl⟩

theorem Symbolized.frame (ht : Symbolized hp s t) : t = { s with memS := t.memS, symLen := t.symLen, err := 0 } := by
  obtain ⟨-, -, _, _, _, _, rfl⟩ := ht
  rfl

/-- SYM_LEN holds the stream's length exactly, because the symbols fit S. -/
theorem Symbolized.symLen_toNat (ht : Symbolized hp s t) :
    t.symLen.toNat = 4 * (prefixLength hp + s.payloadLen.toNat) := by
  obtain ⟨-, hS, _, _, _, _, rfl⟩ := ht
  have := s.caps.sCap.isLt
  exact Nat.mod_eq_of_lt (by omega)

theorem Symbolized.memS_read (ht : Symbolized hp s t) {j q : Nat} {d : Byte}
    (hj : j < prefixLength hp + s.payloadLen.toNat) (hq : q < 4) (hd : streamByte hp s j = some d) :
    t.memS.read (4 * j + q) = some (sym d q) := by
  obtain ⟨l, hl, hget, hS⟩ := ht.stream
  rw [hS, Memory.read_writeBlock_zero, if_pos (by rw [length_serialize]; omega), serialize_get l j q hq,
    hget j (by omega), hd, Option.map_some]

theorem Symbolized.memS_read_after (ht : Symbolized hp s t) {k : Nat}
    (hk : 4 * (prefixLength hp + s.payloadLen.toNat) ≤ k) : t.memS.read k = s.memS.read k := by
  obtain ⟨l, hl, -, hS⟩ := ht.stream
  rw [hS, Memory.read_writeBlock_outside _ _ _ _ (.inr (by rw [length_serialize]; omega))]

/-- Settles O25: both commands are `symbolizeWith`, whose success serializes the stream. -/
theorem symbolizeSerializesBytes : Obligations.SymbolizeSerializesBytes := by
  refine ⟨rfl, rfl, fun s hp i hb hi => ?_⟩
  obtain ⟨hexec, rfl⟩ : exec i s = symbolizeWith hp s ∧ hb = prefixLength hp := by
    rcases hi with ⟨rfl, rfl, rfl⟩ | ⟨rfl, rfl, rfl⟩
    · exact ⟨rfl, rfl⟩
    · exact ⟨rfl, rfl⟩
  rw [hexec]
  refine ⟨fun hB => (symbolizeWith_next hp).2 (.inl ⟨hB, rfl⟩),
    fun hB hS => (symbolizeWith_next hp).2 (.inr (.inl ⟨hB, hS, rfl⟩)), fun hB hS hH hP => ?_⟩
  obtain ⟨t, ht⟩ := symbolized_of_written hB hS hH hP
  exact ⟨t, (symbolizeWith_next hp).2 (.inr (.inr ht)), fun j q d hj hq hd => ht.memS_read hj hq hd,
    fun k hk => ht.memS_read_after hk, ht.symLen_toNat, ht.frame⟩

/-! DESYMBOLIZE -/

theorem desymbolized_of_written (hS : s.symLen.toNat ≤ s.caps.sCap.toNat) (hL : 4 * s.payloadLen.toNat ≤ s.symLen.toNat)
    (hB : s.payloadLen.toNat ≤ s.caps.bCap.toNat) (hw : s.memS.written 0 (4 * s.payloadLen.toNat)) :
    ∃ t, Desymbolized s t := by
  obtain ⟨d, hd⟩ := Option.isSome_iff_exists.1 ((gather_packAt_isSome s.memS s.payloadLen.toNat).2 hw)
  exact ⟨_, hS, hL, hB, d, hd, rfl⟩

theorem Desymbolized.frame (ht : Desymbolized s t) : t = { s with memB := t.memB, err := 0 } := by
  obtain ⟨-, -, -, _, _, rfl⟩ := ht
  rfl

theorem Desymbolized.memB_read (ht : Desymbolized s t) {j : Nat} (hj : j < s.payloadLen.toNat) :
    t.memB.read j = packAt s.memS j := by
  obtain ⟨-, -, -, d, hd, rfl⟩ := ht
  rw [Memory.read_writeBlock_zero, if_pos (by rw [gather_length hd]; exact hj), ← gather_get hd hj, Nat.zero_add]

theorem Desymbolized.memB_read_after (ht : Desymbolized s t) {a : Nat} (ha : s.payloadLen.toNat ≤ a) :
    t.memB.read a = s.memB.read a := by
  obtain ⟨-, -, -, d, hd, rfl⟩ := ht
  exact Memory.read_writeBlock_outside _ _ _ _ (.inr (by rw [gather_length hd]; omega))

/-- Settles O26: byte j of B becomes `packAt` of S at j, which is the packing the rule writes out. -/
theorem desymbolizeReassemblesBytes : Obligations.DesymbolizeReassemblesBytes := by
  refine ⟨rfl, fun s => ⟨fun hS => execDesymbolize_next.2 (.inl ⟨hS, rfl⟩),
    fun hS hL => execDesymbolize_next.2 (.inr (.inl ⟨hS, hL, rfl⟩)),
    fun hS hL hB => execDesymbolize_next.2 (.inr (.inr (.inl ⟨hS, hL, hB, rfl⟩))), fun hS hL hB hw => ?_⟩⟩
  obtain ⟨t, ht⟩ := desymbolized_of_written hS hL hB hw
  refine ⟨t, execDesymbolize_next.2 (.inr (.inr (.inr ht))), fun j x0 x1 x2 x3 hj h0 h1 h2 h3 => ?_,
    fun a ha => ht.memB_read_after ha, ht.frame⟩
  rw [ht.memB_read hj, packAt, h0, h1, h2, h3]
  rfl

/-! The inverse law (40_bitstream_codec.md R103) -/

/-- Packing what SYMBOLIZE wrote gives back the stream. -/
theorem Symbolized.packAt_memS (ht : Symbolized hp s t) {j : Nat} (hj : j < prefixLength hp + s.payloadLen.toNat) :
    packAt t.memS j = streamByte hp s j := by
  obtain ⟨d, hl, hget, hS⟩ := ht.stream
  have hd : d[j]? = some d[j] := List.getElem?_eq_getElem (hl ▸ hj)
  rw [hS, packAt_serialize s.memS d j _ hd, ← hget j (hl ▸ hj), hd]

/-- DESYMBOLIZE of as many bytes as SYMBOLIZE serialized succeeds, and leaves the stream in B. -/
theorem Symbolized.desymbolized (ht : Symbolized hp s t) {len : Word}
    (hlen : len.toNat = prefixLength hp + s.payloadLen.toNat) (hB : len.toNat ≤ s.caps.bCap.toNat) :
    ∃ u, execDesymbolize { t with payloadLen := len } = .next u ∧ u.err = 0 ∧
      ∀ j, j < len.toNat → u.memB.read j = streamByte hp s j := by
  have hcaps : t.caps = s.caps := by rw [ht.frame]
  have hsym : t.symLen.toNat = 4 * len.toNat := by rw [ht.symLen_toNat, hlen]
  have ⟨_, hfit, _⟩ := ht
  obtain ⟨d, hl, -, hS⟩ := ht.stream
  have hd : gather (packAt t.memS) 0 len.toNat = some d := by
    rw [hS, hlen, ← hl, gather_packAt_serialize]
  have hu : Desymbolized { t with payloadLen := len } _ :=
    ⟨by rw [hcaps, hsym, hlen]; exact hfit, hsym.ge, by rw [hcaps]; exact hB, d, hd, rfl⟩
  exact ⟨_, execDesymbolize_next.2 (.inr (.inr (.inr hu))), rfl,
    fun j hj => (hu.memB_read hj).trans (ht.packAt_memS (hlen ▸ hj))⟩

/-- Settles O46: without a header byte j of the stream is B[j]; with the header it is H[j], and byte 128 + j is B[j]. -/
theorem desymbolizeInvertsSymbolize : Obligations.DesymbolizeInvertsSymbolize := by
  refine ⟨fun s t h he => ?_, fun s t len h he hlen hB => ?_⟩
  · have ht : Symbolized false s t := succeeded_of_err h he
    have ⟨hB, _⟩ := ht
    have hsame : { t with payloadLen := s.payloadLen } = t := by rw [ht.frame]
    rw [← hsame]
    exact ht.desymbolized (Nat.zero_add _).symm hB
  · have ht : Symbolized true s t := succeeded_of_err h he
    obtain ⟨u, hu, hue, hread⟩ := ht.desymbolized hlen hB
    refine ⟨u, hu, hue, fun j hj => ?header, fun j hj => ?payload⟩
    case header => exact (hread j (by omega)).trans (if_pos hj)
    case payload =>
      rw [hread (128 + j) (by omega), streamByte, prefixLength, if_pos rfl, if_neg (by omega), Nat.add_sub_cancel_left]

end Sys2Proof.Machine
end

