-- ==== Sys2Proof/Proofs/ChannelWriter.lean ====
section
/-! SUPPORT. The PixelChannelWriter (41_channel_writer.md): what EMBED writes to P (R122), that every command keeps a channel
or multiplexes a symbol into it, which locates all changes in its low two bits (R123), and that EMBED is idempotent. -/

namespace Sys2Proof.Machine

variable {s t : State}

/-! Writing the same block again -/

theorem filter_cells_eq_nil {α : Type} {p : Nat → Bool} {a : Nat} {vs : List α}
    (h : ∀ k, a ≤ k → k < a + vs.length → p k = false) : (cells a vs).filter (fun c => p c.1) = [] := by
  refine List.filter_eq_nil_iff.2 fun c hc => ?_
  obtain ⟨hlo, hhi⟩ := mem_cells hc
  simp [h c.1 hlo hhi]

theorem Memory.filter_writeBlock_below {α : Type} (m : Memory α) (a : Nat) (vs : List α) :
    (m.writeBlock a vs).filter (fun c => decide (c.1 < a)) = m.filter (fun c => decide (c.1 < a)) := by
  have block : (cells a vs).filter (fun c => decide (c.1 < a)) = [] :=
    filter_cells_eq_nil (p := fun k => decide (k < a)) fun k hlo _ => decide_eq_false (by omega)
  have above : m.filter (fun c => decide (c.1 < a) && decide (a + vs.length ≤ c.1)) = [] :=
    List.filter_eq_nil_iff.2 fun c _ => by
      simp only [Bool.and_eq_true, decide_eq_true_eq]
      omega
  simp [writeBlock, List.filter_append, List.filter_filter, block, above]

theorem Memory.filter_writeBlock_above {α : Type} (m : Memory α) (a : Nat) (vs : List α) :
    (m.writeBlock a vs).filter (fun c => decide (a + vs.length ≤ c.1)) =
      m.filter (fun c => decide (a + vs.length ≤ c.1)) := by
  have block : (cells a vs).filter (fun c => decide (a + vs.length ≤ c.1)) = [] :=
    filter_cells_eq_nil (p := fun k => decide (a + vs.length ≤ k)) fun k _ hhi => decide_eq_false (by omega)
  have below : m.filter (fun c => decide (a + vs.length ≤ c.1) && decide (c.1 < a)) = [] :=
    List.filter_eq_nil_iff.2 fun c _ => by
      simp only [Bool.and_eq_true, decide_eq_true_eq]
      omega
  simp [writeBlock, List.filter_append, List.filter_filter, block, below]

/-- A block write over a block of the same length leaves nothing of the first one. -/
theorem Memory.writeBlock_writeBlock {α : Type} (m : Memory α) (a : Nat) {vs ws : List α} (h : vs.length = ws.length) :
    (m.writeBlock a vs).writeBlock a ws = m.writeBlock a ws := by
  rw [writeBlock, filter_writeBlock_below, ← h, filter_writeBlock_above, h, writeBlock]

/-! EMBED (41_channel_writer.md R122) -/

theorem embedded_of_written (hP : s.pixelCount.toNat ≤ s.caps.pCap.toNat) (hS : s.symLen.toNat ≤ s.caps.sCap.toNat)
    (hfit : s.symLen.toNat ≤ 4 * s.pixelCount.toNat) (hwP : s.memP.written 0 s.symLen.toNat)
    (hwS : s.memS.written 0 s.symLen.toNat) : ∃ t, Embedded s t := by
  obtain ⟨cs, hcs⟩ := Option.isSome_iff_exists.1 ((gather_muxAt_isSome s.memP s.memS s.symLen.toNat).2 ⟨hwP, hwS⟩)
  exact ⟨_, hP, hS, hfit, cs, hcs, rfl⟩

theorem Embedded.frame (ht : Embedded s t) : t = { s with memP := t.memP, err := 0 } := by
  obtain ⟨-, -, -, _, _, rfl⟩ := ht
  rfl

theorem Embedded.memP_read (ht : Embedded s t) {k : Nat} (hk : k < s.symLen.toNat) :
    t.memP.read k = muxAt s.memP s.memS k := by
  obtain ⟨-, -, -, cs, hcs, rfl⟩ := ht
  rw [Memory.read_writeBlock_zero, if_pos (by rwa [gather_length hcs]), ← gather_get hcs hk, Nat.zero_add]

theorem Embedded.memP_read_after (ht : Embedded s t) {k : Nat} (hk : s.symLen.toNat ≤ k) :
    t.memP.read k = s.memP.read k := by
  obtain ⟨-, -, -, cs, hcs, rfl⟩ := ht
  exact Memory.read_writeBlock_outside _ _ _ _ (.inr (by rw [gather_length hcs]; omega))

/-- Each channel EMBED writes was written before, and so was its symbol. -/
theorem Embedded.operands (ht : Embedded s t) {k : Nat} (hk : k < s.symLen.toNat) :
    ∃ c x, s.memP.read k = some c ∧ s.memS.read k = some x := by
  obtain ⟨-, -, -, cs, hcs, -⟩ := ht
  have ⟨hP, hS⟩ := (gather_muxAt_isSome s.memP s.memS s.symLen.toNat).1 (by rw [hcs]; rfl)
  obtain ⟨c, hc⟩ := Option.isSome_iff_exists.1 (hP k hk)
  obtain ⟨x, hx⟩ := Option.isSome_iff_exists.1 (hS k hk)
  rw [Nat.zero_add] at hc hx
  exact ⟨c, x, hc, hx⟩

/-- Settles O27: channel k below SYM_LEN becomes `muxAt` of P and S at k, which is the formula of the rule. -/
theorem embedWritesSymbolsIntoLowBits : Obligations.EmbedWritesSymbolsIntoLowBits := by
  refine ⟨rfl, fun s => ⟨fun hP => execEmbed_next.2 (.inl ⟨hP, rfl⟩),
    fun hP hS => execEmbed_next.2 (.inr (.inl ⟨hP, hS, rfl⟩)),
    fun hP hS hfit => execEmbed_next.2 (.inr (.inr (.inl ⟨hP, hS, hfit, rfl⟩))), fun hP hS hfit hwP hwS => ?_⟩⟩
  obtain ⟨t, ht⟩ := embedded_of_written hP hS hfit hwP hwS
  exact ⟨t, execEmbed_next.2 (.inr (.inr (.inr ht))),
    fun k c x hk hc hx => (ht.memP_read hk).trans (muxAt_eq hc hx), fun k hk => ht.memP_read_after hk, ht.frame⟩

/-! Bit locality (41_channel_writer.md R123) -/

/-- From P to P' every channel is kept, or a symbol is multiplexed into it. -/
def KeptOrMuxed (p p' : Memory Byte) : Prop :=
  ∀ k, p'.read k = p.read k ∨ ∃ c x, p.read k = some c ∧ p'.read k = some (muxCh c x)

theorem KeptOrMuxed.of_eq {p p' : Memory Byte} (h : p' = p) : KeptOrMuxed p p' := fun _ => .inl (by rw [h])

theorem KeptOrMuxed.upper {p p' : Memory Byte} (h : KeptOrMuxed p p') (k : Nat) :
    (p'.read k).map (fun c => c.extractLsb' 2 6) = (p.read k).map (fun c => c.extractLsb' 2 6) := by
  rcases h k with hk | ⟨c, x, hc, hc'⟩
  · rw [hk]
  · rw [hc, hc', Option.map_some, Option.map_some, muxCh_keeps_upper]

theorem Embedded.keptOrMuxed (ht : Embedded s t) : KeptOrMuxed s.memP t.memP := by
  intro k
  rcases Nat.lt_or_ge k s.symLen.toNat with hk | hk
  · obtain ⟨c, x, hc, hx⟩ := ht.operands hk
    exact .inr ⟨c, x, hc, (ht.memP_read hk).trans (muxAt_eq hc hx)⟩
  · exact .inl (ht.memP_read_after hk)

/-- The pixel multiplexer works channel by channel: channel k takes symbol k % 4 of byte k / 4. -/
theorem muxPixels_keptOrMuxed {p : Memory Byte} {d cs : List Byte} (h : muxPixels p 0 d = some cs) :
    KeptOrMuxed p (p.writeBlock 0 cs) := by
  intro k
  have hl := length_muxPixels h
  rcases Nat.lt_or_ge k cs.length with hk | hk
  · have written := (muxPixels_isSome p 0 d).1 (by rw [h]; rfl)
    obtain ⟨c, hc⟩ := Option.isSome_iff_exists.1 (written k (by omega))
    rw [Nat.mul_zero, Nat.zero_add] at hc
    have hd : d[k / 4]? = some d[k / 4] := List.getElem?_eq_getElem (by omega)
    have hget := muxPixels_get h (k / 4) _ hd (k % 4) (by omega)
    rw [Nat.zero_add, Nat.div_add_mod, hc] at hget
    exact .inr ⟨c, sym d[k / 4] (k % 4), hc, by rw [Memory.read_writeBlock_zero, if_pos hk, hget, Option.map_some]⟩
  · exact .inl (Memory.read_writeBlock_outside _ _ _ _ (.inr (by omega)))

theorem Injected.keptOrMuxed (ht : Injected s t) : KeptOrMuxed s.memP t.memP := by
  obtain ⟨-, -, -, _, _, _, _, cs, hcs, rfl⟩ := ht
  exact muxPixels_keptOrMuxed hcs

theorem Succeeded.keptOrMuxed {i : Instr} (h : Succeeded i s t) : KeptOrMuxed s.memP t.memP := by
  by_cases he : i = .embed
  · subst he
    exact Embedded.keptOrMuxed h
  by_cases hi : i = .inject
  · subst hi
    exact Injected.keptOrMuxed h
  exact .of_eq (h.keepsMemories.memP he hi)

theorem exec_keptOrMuxed {i : Instr} (h : exec i s = .next t) : KeptOrMuxed s.memP t.memP := by
  rcases exec_next h with hr | hs
  · exact .of_eq (by rw [hr.eq])
  · exact hs.keptOrMuxed

/-- Settles O39: all a command does to a channel is to multiplex a symbol into its low two bits. -/
theorem upperSixBitsAreKept : Obligations.UpperSixBitsAreKept :=
  fun _ _ _ k h => (exec_keptOrMuxed h).upper k

/-! EMBED twice (41_channel_writer.md R122, corner case) -/

/-- Channels that already hold their symbols are what EMBED writes: multiplexing a symbol in twice is doing it once. -/
theorem Embedded.muxAt_memP (ht : Embedded s t) {k : Nat} (hk : k < s.symLen.toNat) :
    muxAt t.memP s.memS k = muxAt s.memP s.memS k := by
  obtain ⟨c, x, hc, hx⟩ := ht.operands hk
  have hc' : t.memP.read k = some (muxCh c x) := (ht.memP_read hk).trans (muxAt_eq hc hx)
  rw [muxAt_eq hc' hx, muxCh_muxCh, muxAt_eq hc hx]

/-- EMBED answers the state it left: it reads the same channels again and writes the same block again. -/
theorem Embedded.again (ht : Embedded s t) : Embedded t t := by
  have same : ∀ k, k < s.symLen.toNat → muxAt t.memP s.memS (0 + k) = muxAt s.memP s.memS (0 + k) :=
    fun k hk => by rw [Nat.zero_add, ht.muxAt_memP hk]
  obtain ⟨hP, hS, hfit, cs, hcs, rfl⟩ := ht
  refine ⟨hP, hS, hfit, cs, (gather_congr 0 _ same).trans hcs, ?_⟩
  rw [Memory.writeBlock_writeBlock s.memP 0 rfl]

/-- Settles O41: after an error the same check fails again, and after success EMBED has nothing left to change. -/
theorem embedTwiceIsEmbedOnce : Obligations.EmbedTwiceIsEmbedOnce := by
  intro s t h
  refine execEmbed_next.2 ?_
  rcases execEmbed_next.1 h with ⟨hP, rfl⟩ | ⟨hP, hS, rfl⟩ | ⟨hP, hS, hfit, rfl⟩ | ht
  · exact .inl ⟨hP, rfl⟩
  · exact .inr (.inl ⟨hP, hS, rfl⟩)
  · exact .inr (.inr (.inl ⟨hP, hS, hfit, rfl⟩))
  · exact .inr (.inr (.inr ht.again))

end Sys2Proof.Machine
end

