-- ==== Sys2Proof/Proofs/ChannelReader.lean ====
section
/-! SUPPORT. The PixelChannelReader (42_channel_reader.md): what EXTRACT_SYMBOLS writes to S (R142), READ_HEADER to H and the
header registers (R143) and READ_PAYLOAD to B (R145), and that DESYMBOLIZE makes the same bytes of the symbols (R146). All
three are said pixel by pixel, through the byte a pixel carries. -/

open Sys2Proof.Claims

namespace Sys2Proof.Machine

variable {s t : State}

/-- What a read gives after the `n` values of `f` from `a` on are stored as a block from index 0 on. -/
theorem Memory.read_writeBlock_gather {α : Type} (m : Memory α) {f : Nat → Option α} {a n : Nat} {vs : List α}
    (h : gather f a n = some vs) (k : Nat) : (m.writeBlock 0 vs).read k = if k < n then f (a + k) else m.read k := by
  rw [Memory.read_writeBlock_zero, gather_length h]
  split
  next hk => exact (gather_get h hk).symm
  next => rfl

/-! EXTRACT_SYMBOLS (42_channel_reader.md R142) -/

theorem symbolsExtracted_of_written (hP : s.pixelCount.toNat ≤ s.caps.pCap.toNat)
    (hS : 4 * s.pixelCount.toNat ≤ s.caps.sCap.toNat) (hw : s.memP.written 0 (4 * s.pixelCount.toNat)) :
    ∃ t, SymbolsExtracted s t := by
  obtain ⟨cs, hcs⟩ := gather_of_written hw
  exact ⟨_, hP, hS, cs, hcs, rfl⟩

theorem SymbolsExtracted.frame (ht : SymbolsExtracted s t) :
    t = { s with memS := t.memS, symLen := t.symLen, err := 0 } := by
  obtain ⟨-, -, _, _, rfl⟩ := ht
  rfl

/-- SYM_LEN holds the number of channels exactly, because the symbols fit S. -/
theorem SymbolsExtracted.symLen_toNat (ht : SymbolsExtracted s t) : t.symLen.toNat = 4 * s.pixelCount.toNat := by
  obtain ⟨-, hS, _, _, rfl⟩ := ht
  have := s.caps.sCap.isLt
  exact Nat.mod_eq_of_lt (by omega)

theorem SymbolsExtracted.memS_read (ht : SymbolsExtracted s t) {k : Nat} (hk : k < 4 * s.pixelCount.toNat) :
    t.memS.read k = (s.memP.read k).map demuxCh := by
  obtain ⟨-, -, cs, hcs, rfl⟩ := ht
  rw [Memory.read_writeBlock_zero, if_pos (by rwa [List.length_map, gather_length hcs]), List.getElem?_map,
    ← gather_get hcs hk, Nat.zero_add]

theorem SymbolsExtracted.memS_read_after (ht : SymbolsExtracted s t) {k : Nat} (hk : 4 * s.pixelCount.toNat ≤ k) :
    t.memS.read k = s.memS.read k := by
  obtain ⟨-, -, cs, hcs, rfl⟩ := ht
  exact Memory.read_writeBlock_outside _ _ _ _ (.inr (by rw [List.length_map, gather_length hcs]; omega))

/-- Settles O28: symbol k below SYM_LEN becomes `demuxCh` of P at k, which is the low bit pair of the rule. -/
theorem extractSymbolsReadsLowBits : Obligations.ExtractSymbolsReadsLowBits := by
  refine ⟨rfl, fun s => ⟨fun hP => execExtractSymbols_next.2 (.inl ⟨hP, rfl⟩),
    fun hP hS => execExtractSymbols_next.2 (.inr (.inl ⟨hP, hS, rfl⟩)), fun hP hS hw => ?_⟩⟩
  obtain ⟨t, ht⟩ := symbolsExtracted_of_written hP hS hw
  refine ⟨t, execExtractSymbols_next.2 (.inr (.inr ht)), fun k c hk hc => ?_, fun k hk => ht.memS_read_after hk,
    ht.symLen_toNat, ht.frame⟩
  rw [ht.memS_read hk, hc]
  rfl

/-! READ_HEADER (42_channel_reader.md R143) -/

/-- A header stored in H has the size field that `hdrSizeOf` decodes (30_encoding.md R83). -/
theorem isSizeField_writeBlock (m : Memory Byte) {hdr : List Byte} (hl : hdr.length = 128) :
    isSizeField (m.writeBlock 0 hdr) (hdrSizeOf hdr) := by
  intro i hi
  rw [Memory.read_writeBlock_zero, if_pos (by omega), hdrSizeOf_get (by omega) hi]

/-- A header stored in H has the name length that `namelen` finds (30_encoding.md R83). -/
theorem isNameLength_writeBlock (m : Memory Byte) {hdr : List Byte} (hl : hdr.length = 128) :
    isNameLength (m.writeBlock 0 hdr) (namelen hdr) := by
  have hle := namelen_le hdr
  have hread (j : Nat) (hj : j < 124) : (m.writeBlock 0 hdr).read (4 + j) = some (hdr.getD (4 + j) 0) := by
    rw [Memory.read_writeBlock_zero, if_pos (by omega), List.getD_eq_getElem?_getD,
      List.getElem?_eq_getElem (by omega), Option.getD_some]
  refine ⟨hle, fun j hlo hj => ?zeros, fun hne => ?last⟩
  case zeros => exact (hread j hj).trans (congrArg some (nameLenUpTo_zero hdr 124 j hlo hj))
  case last =>
    rw [hread _ (by omega)]
    exact fun h => nameLenUpTo_last hdr 124 hne (Option.some.inj h)

theorem headerRead_of_written (hP : s.pixelCount.toNat ≤ s.caps.pCap.toNat) (hn : 128 ≤ s.pixelCount.toNat)
    (hw : s.memP.written 0 512) : ∃ t, HeaderRead s t := by
  obtain ⟨hdr, hh⟩ := gather_pixbyteAt_of_written (a := 0) (n := 128) hw
  exact ⟨_, hP, hn, hdr, hh, rfl⟩

theorem HeaderRead.frame (ht : HeaderRead s t) :
    t = { s with memH := t.memH, hdrSize := t.hdrSize, hdrNameLen := t.hdrNameLen, err := 0 } := by
  obtain ⟨-, -, _, _, rfl⟩ := ht
  rfl

theorem HeaderRead.memH_read (ht : HeaderRead s t) {j : Nat} (hj : j < 128) : t.memH.read j = carried s.memP j := by
  obtain ⟨-, -, hdr, hh, rfl⟩ := ht
  rw [Memory.read_writeBlock_gather s.memH hh, if_pos hj, Nat.zero_add, carried_eq]

theorem HeaderRead.memH_read_after (ht : HeaderRead s t) {a : Nat} (ha : 128 ≤ a) :
    t.memH.read a = s.memH.read a := by
  obtain ⟨-, -, hdr, hh, rfl⟩ := ht
  rw [Memory.read_writeBlock_gather s.memH hh, if_neg (by omega)]

theorem HeaderRead.isSizeField (ht : HeaderRead s t) : isSizeField t.memH t.hdrSize := by
  obtain ⟨-, -, hdr, hh, rfl⟩ := ht
  exact isSizeField_writeBlock s.memH (gather_length hh)

theorem HeaderRead.isNameLength (ht : HeaderRead s t) : isNameLength t.memH t.hdrNameLen.toNat := by
  obtain ⟨-, -, hdr, hh, rfl⟩ := ht
  rw [toNat_namelen]
  exact isNameLength_writeBlock s.memH (gather_length hh)

/-- Settles O29: H takes the bytes the first 128 pixels carry, and the two registers describe what is then in H. -/
theorem readHeaderRecoversTheHeader : Obligations.ReadHeaderRecoversTheHeader := by
  refine ⟨rfl, fun s => ⟨fun hP => execReadHeader_next.2 (.inl ⟨hP, rfl⟩),
    fun hP hn => execReadHeader_next.2 (.inr (.inl ⟨hP, hn, rfl⟩)), fun hP hn hw => ?_⟩⟩
  obtain ⟨t, ht⟩ := headerRead_of_written hP hn hw
  exact ⟨t, execReadHeader_next.2 (.inr (.inr ht)), fun j hj => ht.memH_read hj, ht.isSizeField, ht.isNameLength,
    fun a ha => ht.memH_read_after ha, ht.frame⟩

/-! READ_PAYLOAD (42_channel_reader.md R145) -/

theorem payloadRead_of_written (hP : s.pixelCount.toNat ≤ s.caps.pCap.toNat)
    (hfit : s.hdrSize.toNat ≤ s.pixelCount.toNat - 128) (hB : s.hdrSize.toNat ≤ s.caps.bCap.toNat)
    (hw : s.memP.written 512 (4 * s.hdrSize.toNat)) : ∃ t, PayloadRead s t := by
  obtain ⟨d, hd⟩ := gather_pixbyteAt_of_written (a := 128) hw
  exact ⟨_, hP, hfit, hB, d, hd, rfl⟩

theorem PayloadRead.frame (ht : PayloadRead s t) : t = { s with memB := t.memB, payloadLen := s.hdrSize, err := 0 } := by
  obtain ⟨-, -, -, _, _, rfl⟩ := ht
  rfl

theorem PayloadRead.memB_read (ht : PayloadRead s t) {j : Nat} (hj : j < s.hdrSize.toNat) :
    t.memB.read j = carried s.memP (128 + j) := by
  obtain ⟨-, -, -, d, hd, rfl⟩ := ht
  rw [Memory.read_writeBlock_gather s.memB hd, if_pos hj, carried_eq]

theorem PayloadRead.memB_read_after (ht : PayloadRead s t) {a : Nat} (ha : s.hdrSize.toNat ≤ a) :
    t.memB.read a = s.memB.read a := by
  obtain ⟨-, -, -, d, hd, rfl⟩ := ht
  rw [Memory.read_writeBlock_gather s.memB hd, if_neg (by omega)]

/-- Settles O30: byte j of B becomes the byte pixel 128 + j carries. The rule's max(PIXEL_COUNT − 128, 0) on integers is the
model's subtraction of naturals. -/
theorem readPayloadRecoversThePayload : Obligations.ReadPayloadRecoversThePayload := by
  refine ⟨rfl, fun s => ⟨fun hP => execReadPayload_next.2 (.inl ⟨hP, rfl⟩),
    fun hP hfit => execReadPayload_next.2 (.inr (.inl ⟨hP, by omega, rfl⟩)),
    fun hP hfit hB => execReadPayload_next.2 (.inr (.inr (.inl ⟨hP, by omega, hB, rfl⟩))), fun hP hfit hB hw => ?_⟩⟩
  obtain ⟨t, ht⟩ := payloadRead_of_written hP (by omega) hB hw
  exact ⟨t, execReadPayload_next.2 (.inr (.inr (.inr ht))), fun j hj => ht.memB_read hj,
    fun a ha => ht.memB_read_after ha, ht.frame⟩

/-! The readers and the symbol composition (42_channel_reader.md R146) -/

/-- A block inside a written block is written. -/
theorem Memory.written_inside {α : Type} {m : Memory α} {n a l : Nat} (h : m.written 0 n) (hl : a + l ≤ n) :
    m.written a l := fun k hk => by
  simpa only [Nat.zero_add] using h (a + k) (by omega)

/-- EXTRACT_SYMBOLS has read every channel of every valid pixel. -/
theorem SymbolsExtracted.memP_written (ht : SymbolsExtracted s t) : s.memP.written 0 (4 * s.pixelCount.toNat) := by
  obtain ⟨-, -, cs, hcs, -⟩ := ht
  exact (gather_isSome s.memP.read 0 _).1 (Option.isSome_of_eq_some hcs)

theorem SymbolsExtracted.memS_written (ht : SymbolsExtracted s t) : t.memS.written 0 (4 * s.pixelCount.toNat) :=
  fun k hk => by
    rw [ht.memS_read (by omega), Option.isSome_map]
    exact ht.memP_written k hk

/-- Packing extracted symbols gives the bytes the pixels carry. -/
theorem SymbolsExtracted.packAt_memS (ht : SymbolsExtracted s t) {j : Nat} (hj : j < s.pixelCount.toNat) :
    packAt t.memS j = carried s.memP j := by
  obtain ⟨-, -, cs, hcs, rfl⟩ := ht
  rw [carried_eq, packAt_demux s.memP s.memS _ cs hcs j (by omega)]

/-- DESYMBOLIZE of at most as many bytes as there are valid pixels succeeds, and leaves in B the bytes the pixels carry. -/
theorem SymbolsExtracted.desymbolized (ht : SymbolsExtracted s t) {len : Word}
    (hlen : len.toNat ≤ s.pixelCount.toNat) (hB : len.toNat ≤ s.caps.bCap.toNat) :
    ∃ u, Desymbolized { t with payloadLen := len } u ∧ ∀ j, j < len.toNat → u.memB.read j = carried s.memP j := by
  have hcaps : t.caps = s.caps := by rw [ht.frame]
  have hsym := ht.symLen_toNat
  have hfit : 4 * len.toNat ≤ 4 * s.pixelCount.toNat := Nat.mul_le_mul_left 4 hlen
  have ⟨_, hS, _⟩ := ht
  obtain ⟨u, hu⟩ := desymbolized_of_written (s := { t with payloadLen := len }) (by rw [hcaps, hsym]; exact hS)
    (by rw [hsym]; exact hfit) (by rw [hcaps]; exact hB)
    (Memory.written_inside ht.memS_written (by rw [Nat.zero_add]; exact hfit))
  exact ⟨u, hu, fun j hj => (hu.memB_read hj).trans (ht.packAt_memS (by omega))⟩

/-- Settles O47: both ways read byte j as the one pixel j carries. Every channel the readers need is a valid pixel's, so
EXTRACT_SYMBOLS has read it. -/
theorem readersEqualTheSymbolComposition : Obligations.ReadersEqualTheSymbolComposition := by
  intro s t len h he hlen hn hB
  have ht : SymbolsExtracted s t := succeeded_of_err h he
  have ⟨hP, _⟩ := ht
  obtain ⟨u, hu, huB⟩ := ht.desymbolized hn hB
  obtain ⟨v, hv⟩ := headerRead_of_written hP (by omega) (Memory.written_inside ht.memP_written (by omega))
  obtain ⟨w, hw⟩ := payloadRead_of_written hP (by omega) (by omega) (Memory.written_inside ht.memP_written (by omega))
  refine ⟨u, v, w, exec_of_succeeded (i := .desymbolize) hu, exec_of_succeeded (i := .readHeader) hv,
    exec_of_succeeded (i := .readPayload) hw, Succeeded.err (i := .desymbolize) hu, Succeeded.err (i := .readHeader) hv,
    Succeeded.err (i := .readPayload) hw, fun j hj => ?header, fun j hj => ?payload⟩
  case header => rw [huB j (by omega), hv.memH_read hj]
  case payload => rw [huB (128 + j) (by omega), hw.memB_read hj]

end Sys2Proof.Machine
end

