-- ==== Sys2Proof/Proofs/HeaderOrchestration.lean ====
section
/-! SUPPORT. The header formatter and the orchestration (43_header_orchestration.md): what FORMAT_HEADER, INJECT and EXTRACT
write (R163, R165, R166), that the composites equal their primitive sequences (R168), the round trip (R169) and
the capacity boundary (R170). EXTRACT is said through the two readers it composes, so that their laws say what it leaves. -/

open Sys2Proof.Claims

namespace Sys2Proof.Machine

variable {s t v : State} {rest : List HostStep}

/-- Settles O23: NOP commits the state it is given. -/
theorem nopOnlyClearsErr : Obligations.NopOnlyClearsErr :=
  ⟨rfl, fun _ => execNop_next.2 rfl⟩

/-! FORMAT_HEADER (43_header_orchestration.md R163) -/

/-- The size field of the formatted header is PAYLOAD_LEN. -/
theorem hdrSizeOf_formattedHeader {hdr : List Byte} (hh : formattedHeader s = some hdr) : hdrSizeOf hdr = s.payloadLen := by
  obtain ⟨name, -, rfl⟩ := Option.map_eq_some_iff.1 hh
  exact hdrSizeOf_fmtHeader _ _

/-- The formatted header stored in H is the one of 30_encoding.md R82. -/
theorem isFormatted_writeBlock (m : Memory Byte) {hdr : List Byte} (hh : formattedHeader s = some hdr) :
    isFormatted (m.writeBlock 0 hdr) s.payloadLen s.memN s.nameLen.toNat := by
  have hl := length_formattedHeader hh
  have read (j : Nat) (hj : j < 124) : (m.writeBlock 0 hdr).read (4 + j) = hdr[4 + j]? := by
    rw [Memory.read_writeBlock_zero, if_pos (by omega)]
  have size := isSizeField_writeBlock m hl
  rw [hdrSizeOf_formattedHeader hh] at size
  obtain ⟨name, hn, rfl⟩ := Option.map_eq_some_iff.1 hh
  have hname := length_nameBytes hn
  refine ⟨size, fun j hj => ?name, fun j hlo hj => ?padding⟩
  case name => rw [read j (by omega), fmtHeader_name _ _ j (by omega), ← gather_get hn hj, Nat.zero_add]
  case padding => rw [read j hj, fmtHeader_padding _ _ j (by omega) hj]; rfl

/-- Settles O24: H takes the formatted header as a block of 128 bytes. -/
theorem formatHeaderBuildsTheHeader : Obligations.FormatHeaderBuildsTheHeader := by
  refine ⟨rfl, fun s hw => ?_⟩
  obtain ⟨hdr, hh⟩ := formattedHeader_of_written hw
  exact ⟨_, execFormatHeader_next.2 ⟨hdr, hh, rfl⟩, isFormatted_writeBlock s.memH hh,
    fun a ha => Memory.read_writeBlock_outside _ _ _ _ (.inr (by rw [length_formattedHeader hh]; omega)), rfl⟩

/-! INJECT (43_header_orchestration.md R165) -/

/-- The spec's channel with a symbol of a byte in its low bits is the model's (41_channel_writer.md R121). -/
theorem muxCh_sym (c b : Byte) (q : Nat) : muxCh c (sym b q) = withSymbolOf c b q := by
  have low : ∀ x : Byte, (x.setWidth 2).setWidth 8 = x &&& 3 := by decide +kernel
  rw [muxCh, sym, low]
  rfl

/-- A block written from index 0 on is read back as it is. -/
theorem Memory.readBlock_writeBlock {α : Type} (m : Memory α) {vs : List α} {n : Nat} (h : vs.length = n) :
    (m.writeBlock 0 vs).readBlock 0 n = some vs := by
  refine (gather_eq_some _ 0 n vs).2 ⟨h, fun k hk => ?_⟩
  rw [Nat.zero_add, Memory.read_writeBlock_zero, if_pos (h ▸ hk)]

theorem length_header_append_payload {hdr b : List Byte} (hh : formattedHeader s = some hdr)
    (hb : payloadBytes s = some b) : (hdr ++ b).length = 128 + s.payloadLen.toNat := by
  rw [List.length_append, length_formattedHeader hh, length_payloadBytes hb]

theorem injected_of_written (hP : s.pixelCount.toNat ≤ s.caps.pCap.toNat) (hB : s.payloadLen.toNat ≤ s.caps.bCap.toNat)
    (hfit : 128 + s.payloadLen.toNat ≤ s.pixelCount.toNat) (hw : injectInputsWritten s) : ∃ t, Injected s t := by
  obtain ⟨hwN, hwB, hwP⟩ := hw
  obtain ⟨hdr, hh⟩ := formattedHeader_of_written hwN
  obtain ⟨b, hb⟩ := gather_of_written hwB
  obtain ⟨cs, hcs⟩ := Option.isSome_iff_exists.1 ((muxPixels_isSome s.memP 0 (hdr ++ b)).2 fun k hk => hwP k (by
    rwa [length_header_append_payload hh hb] at hk))
  exact ⟨_, hP, hB, hfit, hdr, hh, b, hb, cs, hcs, rfl⟩

theorem Injected.frame (ht : Injected s t) : t = { s with memH := t.memH, memP := t.memP, err := 0 } := by
  obtain ⟨-, -, -, _, _, _, _, _, _, rfl⟩ := ht
  rfl

theorem Injected.formatted (ht : Injected s t) : isFormatted t.memH s.payloadLen s.memN s.nameLen.toNat := by
  obtain ⟨-, -, -, hdr, hh, _, _, _, _, rfl⟩ := ht
  exact isFormatted_writeBlock s.memH hh

theorem Injected.memH_read_after (ht : Injected s t) {a : Nat} (ha : 128 ≤ a) : t.memH.read a = s.memH.read a := by
  obtain ⟨-, -, -, hdr, hh, _, _, _, _, rfl⟩ := ht
  exact Memory.read_writeBlock_outside _ _ _ _ (.inr (by rw [length_formattedHeader hh]; omega))

/-- INJECT multiplexes the header it leaves in H and then the payload: the stream SYMBOLIZE.H would make of the state it
leaves. -/
theorem Injected.stream (ht : Injected s t) : ∃ d cs : List Byte, d.length = 128 + s.payloadLen.toNat ∧
    (∀ j, j < d.length → d[j]? = streamByte true t j) ∧ muxPixels s.memP 0 d = some cs ∧
    t.memP = s.memP.writeBlock 0 cs := by
  obtain ⟨-, -, -, hdr, hh, b, hb, cs, hcs, rfl⟩ := ht
  have hl := length_header_append_payload hh hb
  exact ⟨hdr ++ b, cs, hl, fun j hj => prefix_append_payload_get (hp := true)
    (s := { s with memH := s.memH.writeBlock 0 hdr, memP := s.memP.writeBlock 0 cs, err := 0 })
    (Memory.readBlock_writeBlock s.memH (length_formattedHeader hh)) hb (hj.trans_eq hl), hcs, rfl⟩

/-- Channel q of pixel j takes symbol q of byte j of the stream. -/
theorem Injected.memP_read (ht : Injected s t) {j q : Nat} {c b : Byte} (hj : j < 128 + s.payloadLen.toNat) (hq : q < 4)
    (hc : s.memP.read (4 * j + q) = some c) (hb : streamByte true t j = some b) :
    t.memP.read (4 * j + q) = some (withSymbolOf c b q) := by
  obtain ⟨d, cs, hl, hget, hcs, hP⟩ := ht.stream
  have hd : d[j]? = some b := (hget j (by omega)).trans hb
  rw [hP, Memory.read_writeBlock_zero, if_pos (by rw [length_muxPixels hcs]; omega), muxPixels_get hcs j b hd q hq,
    Nat.zero_add, hc, Option.map_some, muxCh_sym]

theorem Injected.memP_read_after (ht : Injected s t) {k : Nat} (hk : 4 * (128 + s.payloadLen.toNat) ≤ k) :
    t.memP.read k = s.memP.read k := by
  obtain ⟨d, cs, hl, -, hcs, hP⟩ := ht.stream
  rw [hP, Memory.read_writeBlock_outside _ _ _ _ (.inr (by rw [length_muxPixels hcs, hl]; omega))]

/-- Settles O31: pixel j takes byte j of the stream, which is H[j] for j below 128 and B[j − 128] from there on. -/
theorem injectEncodesHeaderAndPayload : Obligations.InjectEncodesHeaderAndPayload := by
  refine ⟨rfl, fun s => ⟨fun hP => execInject_next.2 (.inl ⟨hP, rfl⟩),
    fun hP hB => execInject_next.2 (.inr (.inl ⟨hP, hB, rfl⟩)),
    fun hP hB hfit => execInject_next.2 (.inr (.inr (.inl ⟨hP, hB, by omega, rfl⟩))), fun hP hB hfit hw => ?_⟩⟩
  obtain ⟨t, ht⟩ := injected_of_written hP hB (by omega) hw
  refine ⟨t, execInject_next.2 (.inr (.inr (.inr ht))), ht.formatted, fun j q c b hj hq hc hb => ?header,
    fun j q c b hj hq hc hb => ?payload, fun k hk => ht.memP_read_after hk, fun a ha => ht.memH_read_after ha, ht.frame⟩
  case header => exact ht.memP_read (by omega) hq hc ((if_pos hj).trans hb)
  case payload =>
    refine ht.memP_read (by omega) hq hc ?_
    rw [streamByte, prefixLength, if_pos rfl, if_neg (by omega), Nat.add_sub_cancel_left, ht.frame]
    exact hb

/-- Settles O50: the capacity check is 128 + PAYLOAD_LEN ≤ PIXEL_COUNT. -/
theorem capacityBoundaryOfInject : Obligations.CapacityBoundaryOfInject := by
  refine fun s hP hn hB => ⟨fun hlen hw => ?fits, fun hlen => ?tooLarge⟩
  case fits =>
    obtain ⟨t, ht⟩ := injected_of_written hP hB (by omega) hw
    exact ⟨t, exec_of_succeeded (i := .inject) ht, Succeeded.err (i := .inject) ht⟩
  case tooLarge => exact execInject_next.2 (.inr (.inr (.inl ⟨hP, hB, by omega, rfl⟩)))

/-! The primitive sequences (43_header_orchestration.md R168) -/

/-- EXTRACT is READ_HEADER and then READ_PAYLOAD with the size just read. -/
theorem succeeded_extract_iff : Succeeded .extract s t ↔ ∃ a, HeaderRead s a ∧ PayloadRead a t := by
  constructor
  · rintro ⟨hP, hn, hdr, hh, hfit, hB, d, hd, rfl⟩
    exact ⟨_, ⟨hP, hn, hdr, hh, rfl⟩, hP, hfit, hB, d, hd, rfl⟩
  · rintro ⟨_, ⟨hP, hn, hdr, hh, rfl⟩, -, hfit, hB, d, hd, rfl⟩
    exact ⟨hP, hn, hdr, hh, hfit, hB, d, hd, rfl⟩

/-- EMBED of the symbols of a byte sequence leaves the channels the multiplexer makes of the sequence. -/
theorem embedded_of_serialized {m : Memory Symbol} {d cs : List Byte} (hS : s.memS = m.writeBlock 0 (serialize d))
    (hlen : s.symLen.toNat = 4 * d.length) (hcs : muxPixels s.memP 0 d = some cs)
    (hP : s.pixelCount.toNat ≤ s.caps.pCap.toNat) (hcap : 4 * d.length ≤ s.caps.sCap.toNat)
    (hfit : d.length ≤ s.pixelCount.toNat) : Embedded s { s with memP := s.memP.writeBlock 0 cs, err := 0 } := by
  refine ⟨hP, by omega, by omega, cs, ?_, rfl⟩
  rw [hlen, hS, gather_muxAt_serialize s.memP m d cs hcs]

/-- INJECT is FORMAT_HEADER, SYMBOLIZE.H and EMBED, when its symbols fit S. -/
theorem Injected.primitives (ht : Injected s v) (hS : 4 * (128 + s.payloadLen.toNat) ≤ s.caps.sCap.toNat) :
    ∃ a b c, Succeeded .formatHeader s a ∧ Symbolized true a b ∧ Embedded b c ∧
      c = { v with memS := c.memS, symLen := c.symLen } := by
  obtain ⟨hP, hB, hfit, hdr, hh, b, hb, cs, hcs, rfl⟩ := ht
  have hl := length_header_append_payload hh hb
  have hsym : Symbolized true { s with memH := s.memH.writeBlock 0 hdr, err := 0 } _ :=
    ⟨hB, hS, hdr, Memory.readBlock_writeBlock s.memH (length_formattedHeader hh), b, hb, rfl⟩
  have hemb := embedded_of_serialized rfl (hsym.symLen_toNat.trans (by rw [hl]; rfl)) hcs hP (by rwa [hl]) (by rwa [hl])
  exact ⟨_, _, _, ⟨hdr, hh, rfl⟩, hsym, hemb, rfl⟩

/-- Settles O48: a composite that succeeds is its sequence of primitives, each of which succeeds. -/
theorem compositesEqualPrimitiveSequences : Obligations.CompositesEqualPrimitiveSequences := by
  refine ⟨fun s v h he hS => ?inject, fun s v h he => ?extract⟩
  case inject =>
    have hv : Injected s v := succeeded_of_err h he
    obtain ⟨a, b, c, ha, hb, hc, heq⟩ := hv.primitives hS
    exact ⟨a, b, c, exec_of_succeeded ha, exec_of_succeeded (i := .symbolizeH) hb, exec_of_succeeded (i := .embed) hc,
      ha.err, Succeeded.err (i := .symbolizeH) hb, heq⟩
  case extract =>
    obtain ⟨a, ha, hv⟩ := succeeded_extract_iff.1 (succeeded_of_err h he)
    exact ⟨a, exec_of_succeeded (i := .readHeader) ha, Succeeded.err (i := .readHeader) ha,
      exec_of_succeeded (i := .readPayload) hv⟩

/-! EXTRACT (43_header_orchestration.md R166) -/

/-- The two readers succeed when the pixels carry a payload that fits, and its channels are written. -/
theorem readers_of_written {hdr : List Byte} (hP : s.pixelCount.toNat ≤ s.caps.pCap.toNat)
    (hh : gather (pixbyteAt s.memP) 0 128 = some hdr) (hfit : 128 + (hdrSizeOf hdr).toNat ≤ s.pixelCount.toNat)
    (hB : (hdrSizeOf hdr).toNat ≤ s.caps.bCap.toNat) (hw : s.memP.written 512 (4 * (hdrSizeOf hdr).toNat)) :
    ∃ a t, HeaderRead s a ∧ a.hdrSize = hdrSizeOf hdr ∧ PayloadRead a t := by
  obtain ⟨d, hd⟩ := gather_pixbyteAt_of_written (a := 128) hw
  exact ⟨_, _, ⟨hP, by omega, hdr, hh, rfl⟩, rfl, hP, by exact Nat.le_sub_of_add_le' hfit, hB, d, hd, rfl⟩

/-- Settles O32: the size the pixels carry is the size of the header read from them, and on success the laws of the two readers
say what is left. -/
theorem extractDecodesHeaderAndPayload : Obligations.ExtractDecodesHeaderAndPayload := by
  refine ⟨rfl, fun s => ⟨fun hP => execExtract_next.2 (.inl ⟨hP, rfl⟩),
    fun hP hn => execExtract_next.2 (.inr (.inl ⟨hP, hn, rfl⟩)), fun hP hn hw size hsize => ?_⟩⟩
  obtain ⟨hdr, hh⟩ := gather_pixbyteAt_of_written (a := 0) (n := 128) hw
  obtain rfl := (carried_size_iff hh size).1 hsize
  have afterHeader {t : State} := fun h => (execExtract_next (t := t)).2 (.inr (.inr ⟨hP, hn, hdr, hh, h⟩))
  refine ⟨fun hfit => afterHeader (.inl ⟨by omega, rfl⟩),
    fun hfit hB => afterHeader (.inr (.inl ⟨by omega, hB, rfl⟩)), fun hfit hB hwB => ?_⟩
  obtain ⟨a, t, ha, hsz, ht⟩ := readers_of_written hP hh (by omega) hB hwB
  have haP : a.memP = s.memP := by rw [ha.frame]
  have haB : a.memB = s.memB := by rw [ha.frame]
  have htH : t.memH = a.memH := by rw [ht.frame]
  have htN : t.hdrNameLen = a.hdrNameLen := by rw [ht.frame]
  refine ⟨t, exec_of_succeeded (succeeded_extract_iff.2 ⟨a, ha, ht⟩), fun j hj => ?header, ?nameLen, fun j hj => ?payload,
    fun k hk => ?afterHeader, fun k hk => ?afterPayload, ?frame⟩
  case header => rw [htH, ha.memH_read hj]
  case nameLen => rw [htH, htN]; exact ha.isNameLength
  case payload => rw [ht.memB_read (by rwa [hsz]), haP]
  case afterHeader => rw [htH, ha.memH_read_after hk]
  case afterPayload => rw [ht.memB_read_after (by rwa [hsz]), haB]
  case frame => rw [← hsz, htH, htN, ht.frame, ha.frame]

/-! The round trip (43_header_orchestration.md R169) -/

/-- The pixels INJECT leaves carry the formatted header and then the payload. -/
theorem Injected.carries (ht : Injected s t) : ∃ hdr b, formattedHeader s = some hdr ∧ payloadBytes s = some b ∧
    gather (pixbyteAt t.memP) 0 128 = some hdr ∧ gather (pixbyteAt t.memP) 128 s.payloadLen.toNat = some b := by
  obtain ⟨-, -, -, hdr, hh, b, hb, cs, hcs, rfl⟩ := ht
  have hhl := length_formattedHeader hh
  have hbl := length_payloadBytes hb
  refine ⟨hdr, b, hh, hb, ?_, ?_⟩
  · rw [gather_pixbyteAt_muxPixels _ _ _ hcs 0 128 (by rw [List.length_append]; omega), List.drop_zero,
      List.take_left' hhl]
  · rw [gather_pixbyteAt_muxPixels _ _ _ hcs 128 _ (by rw [List.length_append]; omega), List.drop_left' hhl,
      List.take_of_length_le hbl.le]

/-- EXTRACT from the pixels INJECT left succeeds, and recovers the size, the header and the payload. -/
theorem Injected.extracted {t' : State} (ht : Injected s t) (hP : t'.memP = t.memP)
    (hn : t'.pixelCount = s.pixelCount) (hc : t'.caps = s.caps) :
    ∃ u, Succeeded .extract t' u ∧ u.payloadLen = s.payloadLen ∧ u.hdrSize = s.payloadLen ∧
      isFormatted u.memH s.payloadLen s.memN s.nameLen.toNat ∧ isNameLength u.memH u.hdrNameLen.toNat ∧
      ∀ j, j < s.payloadLen.toNat → u.memB.read j = s.memB.read j := by
  obtain ⟨hdr, b, hh, hb, hhdr, hpay⟩ := ht.carries
  obtain ⟨hcap, hB, hfit, -⟩ := ht
  have hsize := hdrSizeOf_formattedHeader hh
  refine ⟨_, ⟨by rwa [hn, hc], by rw [hn]; omega, hdr, by rw [hP, hhdr], by rw [hsize, hn]; omega, by rwa [hsize, hc], b,
    by rw [hP, hsize, hpay], rfl⟩, hsize, hsize, isFormatted_writeBlock t'.memH hh, ?_, fun j hj => ?_⟩
  · rw [toNat_namelen]
    exact isNameLength_writeBlock t'.memH (length_formattedHeader hh)
  · rw [Memory.read_writeBlock_gather t'.memB hb, if_pos hj, Nat.zero_add]

/-- A stripped name is no longer than the name, because the header pads with zeros. -/
theorem nameLength_le_of_formatted {h n : Memory Byte} {x : Word} {k len : Nat} (hk : isNameLength h k)
    (hf : isFormatted h x n len) : k ≤ len := by
  obtain ⟨hle, -, hlast⟩ := hk
  obtain ⟨-, -, hpad⟩ := hf
  by_contra hlt
  exact hlast (by omega) (hpad (k - 1) (by omega) (by omega))

/-- A name that ends in a nonzero byte is not stripped (30_encoding.md R84). -/
theorem nameLength_eq_of_formatted {h n : Memory Byte} {x : Word} {k len : Nat} (hk : isNameLength h k)
    (hf : isFormatted h x n len) (hlen : len ≤ 124) (hn : len = 0 ∨ n.read (len - 1) ≠ some 0) : k = len := by
  have hle := nameLength_le_of_formatted hk hf
  obtain ⟨-, hzero, -⟩ := hk
  obtain ⟨-, hname, -⟩ := hf
  by_contra hne
  refine hn.elim (by omega) fun hlast => hlast ?_
  rw [← hname (len - 1) (by omega)]
  exact hzero (len - 1) (by omega) (by omega)

/-- A run of host writes in range to B changes B only. -/
theorem run_writesToB (ws : List (Nat × Byte)) (s : State) (hb : s.busy = false)
    (hws : ∀ c, c ∈ ws → c.1 < s.caps.bCap.toNat) (hh : s.host = writesToB ws ++ rest) :
    ∃ m, Host.Core.run core ws.length s = .next { s with memB := m, host := rest } := by
  induction ws generalizing s with
  | nil =>
    have : s.host = rest := hh
    subst this
    exact ⟨s.memB, rfl⟩
  | cons c ws ih =>
    have first := step_memWrite (sp := .b) hb (hws c (by simp)) hh
    obtain ⟨m, hm⟩ := ih (writeElement { s with host := writesToB ws ++ rest } .b c.1 c.2) hb
      (fun c' hc' => hws c' (by simp [hc'])) rfl
    exact ⟨m, (run_one first ws.length).trans hm⟩

/-- Settles O49: the host's writes to B leave P as INJECT left it, and EXTRACT reads header and payload from P. -/
theorem injectThenExtractRecoversAll : Obligations.InjectThenExtractRecoversAll := by
  intro s ws rest hb hh hws hP hB hfit hw
  have hfit' : 128 + s.payloadLen.toNat ≤ s.pixelCount.toNat := by omega
  obtain ⟨t, ht⟩ := injected_of_written (s := { s with
    cmd := 8, host := writesToB ws ++ .regWrite 0x00 4 0x00000009 :: rest }) hP hB hfit' hw
  have inject : step s = .next t := (step_command hb hh (decode_encode .inject)).trans (exec_of_succeeded (i := .inject) ht)
  obtain ⟨m, writes⟩ := run_writesToB ws t (by rw [ht.frame]; exact hb) (by rw [ht.frame]; exact hws) (by rw [ht.frame])
  obtain ⟨u, hu, hlen, hsize, hform, hname, hpay⟩ := ht.extracted (t' := { t with memB := m, cmd := 9, host := rest }) rfl
    (by rw [ht.frame]) (by rw [ht.frame])
  have extract : step { t with memB := m, host := .regWrite 0x00 4 0x00000009 :: rest } = .next u :=
    (step_command (by rw [ht.frame]; exact hb) rfl (decode_encode .extract)).trans (exec_of_succeeded hu)
  refine ⟨u, ?run, hu.same.host, hu.err, hlen, hsize, hpay, ?name, hname, nameLength_le_of_formatted hname hform,
    fun hl hn => BitVec.eq_of_toNat_eq (nameLength_eq_of_formatted hname hform hl hn)⟩
  case run => rw [run_one inject (ws.length + 1), run_add core ws.length 1 t _ writes, run_one extract 0]; rfl
  case name =>
    obtain ⟨-, hread, -⟩ := hform
    exact hread

end Sys2Proof.Machine
end

