-- ==== Sys2Proof/Proofs/Info.lean ====
section
/-! SUPPORT. INFO, the assembler's sequence of READ_HEADER and reads (43_header_orchestration.md R167, 30_encoding.md R77): one
lemma per kind of interaction, and their runs put one after the other. -/

open Sys2Proof.Claims

namespace Sys2Proof.Machine

variable {s t v : State} {rest : List HostStep}

/-- A run of host reads of written elements in range gives the elements and changes nothing in the block. -/
theorem run_asmReadFrom {sp : Space} (vs : List Byte) (s : State) (a : Nat) (hb : s.busy = false)
    (hv : ∀ j, j < vs.length → readElement s sp (a + j) = vs[j]?) (ha : a + vs.length ≤ spaceSize s.caps sp)
    (hh : s.host = asmReadFrom sp a vs.length ++ rest) :
    Host.Core.run core vs.length s =
      .next { s with host := rest, replies := (vs.map Reply.element).reverse ++ s.replies } := by
  induction vs generalizing s a with
  | nil =>
    have : s.host = rest := hh
    subst this
    rfl
  | cons v vs ih =>
    have ha' : a + 1 + vs.length ≤ spaceSize s.caps sp := by rw [List.length_cons] at ha; omega
    have read : readElement s sp a = some v := hv 0 (by simp)
    have first := step_memRead hb (by omega) hh
    rw [read, reading_some] at first
    rw [List.length_cons, run_one first]
    refine (ih { s with host := asmReadFrom sp (a + 1) vs.length ++ rest, replies := .element v :: s.replies } (a + 1) hb
      (fun j hj => ?elements) ha' rfl).trans ?answers
    case elements =>
      have next := hv (j + 1) (by simpa using hj)
      rw [List.getElem?_cons_succ, show a + (j + 1) = a + 1 + j by omega] at next
      rw [← next]
      cases sp <;> rfl
    case answers => rw [List.map_cons, List.reverse_cons, List.append_assoc]; rfl

/-- STATUS of a block that is not busy is its error code (10_state.md R23). -/
theorem statusWord_of_notBusy (hb : s.busy = false) : statusWord s = s.err.setWidth 32 := by
  rw [statusWord, hb]
  exact BitVec.or_zero

/-- The capacity registers follow PIXEL_COUNT alone (10_state.md R31). -/
theorem capacity_congr (h : t.pixelCount = s.pixelCount) : capacityLo t = capacityLo s ∧ capacityHi t = capacityHi s := by
  rw [capacityLo, capacityHi, capacity, h]
  exact ⟨rfl, rfl⟩

/-- READ_HEADER, with an error or not, writes H, the two header registers and STATUS.ERR only. -/
theorem readHeader_frame (h : exec .readHeader s = .next v) :
    v = { s with memH := v.memH, hdrSize := v.hdrSize, hdrNameLen := v.hdrNameLen, err := v.err } := by
  rcases exec_next h with ⟨_, _, rfl⟩ | hr
  · rfl
  · rw [Succeeded.err hr]
    exact HeaderRead.frame hr

/-- READ_HEADER does not depend on CMD and the host's list. -/
theorem readHeader_issued (h : exec .readHeader s = .next v) (w : Word) (hs : List HostStep) :
    exec .readHeader { s with cmd := w, host := hs } = .next { v with cmd := w, host := hs } := by
  refine execReadHeader_next.2 ?_
  rcases execReadHeader_next.1 h with ⟨hP, rfl⟩ | ⟨hP, hn, rfl⟩ | ⟨hP, hn, hdr, hh, rfl⟩
  · exact .inl ⟨hP, rfl⟩
  · exact .inr (.inl ⟨hP, hn, rfl⟩)
  · exact .inr (.inr ⟨hP, hn, hdr, hh, rfl⟩)

/-- A header that has been read is written in H, and so is its name. -/
theorem HeaderRead.name_written (ht : HeaderRead s t) :
    t.hdrNameLen.toNat ≤ 124 ∧ t.memH.written 4 t.hdrNameLen.toNat := by
  obtain ⟨hle, -⟩ := ht.isNameLength
  obtain ⟨-, -, hdr, hh, rfl⟩ := ht
  have whole := Memory.readBlock_writeBlock s.memH (gather_length hh)
  exact ⟨hle, Memory.written_inside ((gather_isSome _ 0 128).1 (Option.isSome_of_eq_some whole)) (by omega)⟩

/-- INFO's interactions: READ_HEADER, four registers, the name in H, and the capacity (30_encoding.md R77). -/
theorem asmInfo_append (k : Nat) (rest : List HostStep) : asmInfo k ++ rest = asmCommand .readHeader ::
    ([.status, .status, .hdrSize, .hdrNameLen].map asmRD ++
      (asmReadFrom .h 4 k ++ ([.capacityLo, .capacityHi].map asmRD ++ rest))) := by
  simp [asmInfo, asmWait]

/-- The reads of INFO give STATUS twice, the two header registers, the name and the capacity. -/
theorem run_infoReads {name : List Byte} (hb : s.busy = false) (h124 : name.length ≤ 124)
    (hname : ∀ j, j < name.length → s.memH.read (4 + j) = name[j]?)
    (hh : s.host = [.status, .status, .hdrSize, .hdrNameLen].map asmRD ++
      (asmReadFrom .h 4 name.length ++ ([.capacityLo, .capacityHi].map asmRD ++ rest))) :
    Host.Core.run core (4 + (name.length + 2)) s = .next { s with
      host := rest
      replies := .word (capacityHi s) :: .word (capacityLo s) :: ((name.map Reply.element).reverse ++
        .word s.hdrNameLen :: .word s.hdrSize :: .word (statusWord s) :: .word (statusWord s) :: s.replies) } := by
  have inRange : 4 + name.length ≤ spaceSize s.caps .h := by simp only [spaceSize]; omega
  have registers := run_reads [.status, .status, .hdrSize, .hdrNameLen] s _ hb hh
  have elements (hs : List HostStep) (rs : List Reply) := run_asmReadFrom (sp := .h) (rest := hs) name
    { s with host := asmReadFrom .h 4 name.length ++ hs, replies := rs } 4 hb hname inRange rfl
  have capacities (rs : List Reply) := run_reads [.capacityLo, .capacityHi]
    { s with host := [.capacityLo, .capacityHi].map asmRD ++ rest, replies := rs } rest hb rfl
  exact (run_add core 4 _ s _ registers).trans ((run_add core _ 2 _ _ (elements _ _)).trans (capacities _))

/-- Settles O51: READ_HEADER runs with CMD = 6, and the reads after it change nothing in the block. -/
theorem infoReportsTheHeaderAndTheCapacity : Obligations.InfoReportsTheHeaderAndTheCapacity := by
  intro s v rest hb h hv hh
  have frame := readHeader_frame h
  refine ⟨frame, ?_⟩
  obtain ⟨h124, hw⟩ : v.hdrNameLen.toNat ≤ 124 ∧ v.memH.written 4 v.hdrNameLen.toNat :=
    hv.elim (fun he => HeaderRead.name_written (succeeded_of_err h he)) id
  obtain ⟨name, hname⟩ := gather_of_written hw
  have hl := gather_length hname
  have hget : ∀ j, j < name.length → v.memH.read (4 + j) = name[j]? := fun j hj => gather_get hname (hl ▸ hj)
  rw [asmInfo_append, ← hl] at hh
  have command := (step_command hb hh (decode_encode .readHeader)).trans (readHeader_issued h _ _)
  have same := exec_same h
  have hbv : v.busy = false := same.busy.trans hb
  have reads := run_infoReads (rest := rest) (s := { v with cmd := encode .readHeader, host := _ }) hbv
    (hl.trans_le h124) hget rfl
  have count : 7 + v.hdrNameLen.toNat = 4 + (name.length + 2) + 1 := by omega
  rw [count, run_one command, reads]
  refine ⟨_, name, rfl, hl, hget, ?_⟩
  obtain ⟨hlo, hhi⟩ := capacity_congr same.pixelCount
  rw [← hlo, ← hhi, ← statusWord_of_notBusy hbv, ← same.replies]
  rfl

end Sys2Proof.Machine
end

