-- ==== Sys2Proof/Proofs/Exceptions.lean ====
section
/-! SUPPORT. Errors and stops (60_exceptions.md): a failed command changes only STATUS.ERR (R203), which code each command can
leave (R201, R202), what a retry does (R206), and that no command is refused (R217). -/

open Sys2Proof.Claims

namespace Sys2Proof.Machine

variable {s t : State} {i : Instr}

/-- Settles O6: a step with an empty list is idle (R215). -/
theorem idleBlockKeepsItsState : Obligations.IdleBlockKeepsItsState := fun _ => step_idle

/-! Errors are precise (R203), and a retry meets the same error (R206) -/

theorem raised_of_err (h : exec i s = .next t) (he : t.err ≠ 0) : Raised s t :=
  (exec_next h).resolve_right fun hs => he hs.err

/-- Settles O33: with STATUS.ERR nonzero the command has raised an error, and none of the codes a command raises is
NAME_DECODE or ILLEGAL_COMMAND. -/
theorem errorsChangeOnlyErr : Obligations.ErrorsChangeOnlyErr := by
  intro i s t h herr
  obtain ⟨e, he, ht⟩ := raised_of_err h herr
  refine ⟨e, ?_, ?_, ?_, ht⟩ <;> (rintro rfl; simp at he)

/-- No command reads STATUS.ERR, and each ends by writing it: what it held before makes no difference. -/
theorem exec_withErr (i : Instr) (s : State) (c : BitVec 4) : exec i { s with err := c } = exec i s := by
  cases i <;> rfl

/-- Settles O40: a failed command leaves a state that differs from the one before only in STATUS.ERR, which no command reads. -/
theorem retryGivesTheSameError : Obligations.RetryGivesTheSameError := by
  intro i s t h herr
  calc exec i t = exec i { s with err := t.err } := congrArg (exec i) (raised_of_err h herr).eq
    _ = exec i s := exec_withErr i s t.err
    _ = .next t := h

/-! The codes of each command (R201, R202) -/

theorem symbolizeWith_err_mem {hp : Bool} (h : symbolizeWith hp s = .next t) : t.err ∈ [0, 6] := by
  rcases (symbolizeWith_next hp).1 h with ⟨-, rfl⟩ | ⟨-, -, rfl⟩ | ⟨-, -, _, -, _, -, rfl⟩ <;> simp

/-- Settles O34: for each command its errors in the order of its checks, and then its success. -/
theorem errorCodesOfEachCommand : Obligations.ErrorCodesOfEachCommand := by
  intro i s t h
  cases i with
  | nop =>
    obtain rfl := execNop_next.1 h
    simp [possibleCodes]
  | formatHeader =>
    obtain ⟨_, -, rfl⟩ := execFormatHeader_next.1 h
    simp [possibleCodes]
  | symbolize => exact symbolizeWith_err_mem h
  | symbolizeH => exact symbolizeWith_err_mem h
  | desymbolize =>
    rcases execDesymbolize_next.1 h with ⟨-, rfl⟩ | ⟨-, -, rfl⟩ | ⟨-, -, -, rfl⟩ | ⟨-, -, -, _, -, rfl⟩ <;>
      simp [possibleCodes]
  | embed =>
    rcases execEmbed_next.1 h with ⟨-, rfl⟩ | ⟨-, -, rfl⟩ | ⟨-, -, -, rfl⟩ | ⟨-, -, -, _, -, rfl⟩ <;>
      simp [possibleCodes]
  | extractSymbols =>
    rcases execExtractSymbols_next.1 h with ⟨-, rfl⟩ | ⟨-, -, rfl⟩ | ⟨-, -, _, -, rfl⟩ <;>
      simp [possibleCodes]
  | readHeader =>
    rcases execReadHeader_next.1 h with ⟨-, rfl⟩ | ⟨-, -, rfl⟩ | ⟨-, -, _, -, rfl⟩ <;>
      simp [possibleCodes]
  | readPayload =>
    rcases execReadPayload_next.1 h with ⟨-, rfl⟩ | ⟨-, -, rfl⟩ | ⟨-, -, -, rfl⟩ | ⟨-, -, -, _, -, rfl⟩ <;>
      simp [possibleCodes]
  | inject =>
    rcases execInject_next.1 h with
      ⟨-, rfl⟩ | ⟨-, -, rfl⟩ | ⟨-, -, -, rfl⟩ | ⟨-, -, -, _, -, _, -, _, -, rfl⟩ <;>
      simp [possibleCodes]
  | extract =>
    rcases execExtract_next.1 h with
      ⟨-, rfl⟩ | ⟨-, -, rfl⟩ | ⟨-, -, _, -, ⟨-, rfl⟩ | ⟨-, -, rfl⟩ | ⟨-, -, _, -, rfl⟩⟩ <;>
      simp [possibleCodes]

/-! No command is refused (R217): a command is a chain of checks and reads that ends in a commit, and none of these refuses. -/

theorem check_ne_refused {c : Prop} [Decidable c] {e : ErrCode} {go : Result} {r : Refusal} (h : go ≠ .refused r) :
    (if c then raise e s else go) ≠ .refused r :=
  fun hr => h ((check_refused c e s go r).1 hr).2

theorem reading_ne_refused {α : Type} {o : Option α} {go : α → Result} {r : Refusal} (h : ∀ x, go x ≠ .refused r) :
    reading o go ≠ .refused r :=
  fun hr => ((reading_refused o go r).1 hr).elim fun x hx => h x hx.2

theorem symbolizeWith_ne_refused (hp : Bool) (s : State) (r : Refusal) : symbolizeWith hp s ≠ .refused r :=
  check_ne_refused (check_ne_refused (reading_ne_refused fun _ => reading_ne_refused fun _ => commit_refused _ r))

theorem exec_ne_refused (i : Instr) (s : State) (r : Refusal) : exec i s ≠ .refused r := by
  cases i with
  | nop => exact commit_refused s r
  | formatHeader => exact reading_ne_refused fun _ => commit_refused _ r
  | symbolize => exact symbolizeWith_ne_refused false s r
  | symbolizeH => exact symbolizeWith_ne_refused true s r
  | desymbolize =>
    exact check_ne_refused (check_ne_refused (check_ne_refused (reading_ne_refused fun _ => commit_refused _ r)))
  | embed =>
    exact check_ne_refused (check_ne_refused (check_ne_refused (reading_ne_refused fun _ => commit_refused _ r)))
  | extractSymbols => exact check_ne_refused (check_ne_refused (reading_ne_refused fun _ => commit_refused _ r))
  | readHeader => exact check_ne_refused (check_ne_refused (reading_ne_refused fun _ => commit_refused _ r))
  | readPayload =>
    exact check_ne_refused (check_ne_refused (check_ne_refused (reading_ne_refused fun _ => commit_refused _ r)))
  | inject =>
    exact check_ne_refused (check_ne_refused (check_ne_refused (reading_ne_refused fun _ => reading_ne_refused fun _ =>
      reading_ne_refused fun _ => commit_refused _ r)))
  | extract =>
    exact check_ne_refused (check_ne_refused (reading_ne_refused fun _ => check_ne_refused (check_ne_refused
      (reading_ne_refused fun _ => commit_refused _ r))))

/-- Settles O35: a refusal cannot happen, and UNWRITTEN_READ is the only fault there is. -/
theorem commandsAreNeverStuck : Obligations.CommandsAreNeverStuck := by
  intro i s
  cases h : exec i s with
  | next t => exact .inl ⟨t, rfl⟩
  | fault f =>
    cases f
    exact .inr rfl
  | refused r => exact absurd h (exec_ne_refused i s r)

end Sys2Proof.Machine
end

