-- ==== Sys2Proof/Proofs/ResetAndHazards.lean ====
section
/-! SUPPORT. A busy block (70_reset_and_hazards.md R246), the state after reset (R240, R241) and a reset by the platform
(R242). -/

open Sys2Proof.Claims

namespace Sys2Proof.Machine

variable {s : State}

/-! BUSY = 1 (70_reset_and_hazards.md R246) -/

/-- STATUS can be read in every state. -/
theorem interact_statusRead (s : State) :
    interact (.regRead (regOffset .status) 4) s = reply (.word (statusWord s)) s := by
  simp [interact, allowedWhileBusy, hostRegRead_reg, readReg]

theorem step_refused_of_busy {x : HostStep} {rest : List HostStep} (hb : s.busy = true) (hx : allowedWhileBusy x = false)
    (hh : s.host = x :: rest) : step s = .refused .busyAccess := by
  simp [step_cons hh, interact, hb, hx]

theorem allowedWhileBusy_regRead_false {o w : Nat} (h : o ≠ 0x04 ∨ w ≠ 4) : allowedWhileBusy (.regRead o w) = false := by
  simpa [allowedWhileBusy, regOffset, imp_iff_not_or] using h

/-- Settles O15: of the host's accesses only a read of STATUS is allowed while BUSY = 1, and it gives `statusWord`. -/
theorem busyBlockAdmitsOnlyStatusReads : Obligations.BusyBlockAdmitsOnlyStatusReads := by
  intro s offset width a sp v w rest hb
  refine ⟨fun hh => ?_, fun h => step_refused_of_busy hb (allowedWhileBusy_regRead_false h),
    step_refused_of_busy hb rfl, step_refused_of_busy hb rfl, step_refused_of_busy hb rfl⟩
  have status : statusWord s = 0x100#32 + s.err.setWidth 32 := by rw [statusWord_eq, hb, if_pos rfl]
  rw [step_cons hh, ← status]
  exact interact_statusRead _

/-! The state after reset (70_reset_and_hazards.md R240, R241) -/

/-- The spec's table of reset values is its table of registers in the state after reset. -/
theorem registerMap_reset : registerMap State.reset = resetTable := rfl

/-- Settles O16: in the state after reset, a listed offset is a register's and any other one is reserved. -/
theorem resetRegisterValues : Obligations.ResetRegisterValues := by
  rintro offset w (hw | ⟨hlo, hhi, h4, rfl⟩)
  · exact hostReadsARegister { State.reset with host := [.regRead offset 4] } offset w [] rfl
      (registerMap_reset ▸ hw) rfl
  · exact ((reservedOffsetsAndBadAccesses { State.reset with host := [.regRead offset 4] } offset 4 0 [] rfl).1
      hlo hhi h4).1 rfl

/-- Settles O17: every memory is empty after reset, so a read in range finds no element. -/
theorem resetMemoriesHoldNothing : Obligations.ResetMemoriesHoldNothing := by
  intro c sp a ha
  have unwritten : elementAt { State.resetWith c with host := [.memRead sp a] } sp a = none := by cases sp <;> rfl
  exact (hostReadOfAnElement _ sp a [] rfl ha rfl).1 unwritten

/-- Settles O18: a reset by the platform is allowed whatever BUSY is. -/
theorem platformResetGivesTheResetState : Obligations.PlatformResetGivesTheResetState := by
  intro s rest hh
  rw [step_cons hh, interact_platformReset]
  rfl

/-- N_CAP is at least 124 (00_scope.md R9). -/
theorem le_configNCap : 124 ≤ Config.nCap.toNat := by
  unfold Config.nCap
  split
  · decide
  · omega

/-- The reset state of a block with a legal N_CAP meets the invariant, whatever its other capacities. -/
theorem resetWith_inv {c : Caps} (hn : 124 ≤ c.nCap.toNat) : (State.resetWith c).Inv :=
  ⟨by constructor <;> simp, by constructor <;> simp [hn]⟩

/-- Settles O19: of the open capacities the invariant bounds only N_CAP. -/
theorem resetMeetsTheInvariant : Obligations.ResetMeetsTheInvariant := resetWith_inv le_configNCap

end Sys2Proof.Machine
end
